-- ==== Sys2Proof/Word.lean ====
section
/-! DEFINITION. The words of the block: the fixed widths of spec/00_scope.md R5 and the formats of spec/30_encoding.md R60 to R63. -/

namespace Sys2Proof

/-- DATA_WIDTH, 8 bits (R5): "every image access and every send moves one byte". -/
abbrev Byte := BitVec 8

/-- ADDR_WIDTH, 24 bits (R5): a console address, a folded address, or an image offset K (R62). -/
abbrev Addr := BitVec 24

/-- The snapshot word, 27 bits (R60): A in 23:0, RD in 24, WR in 25, CS in 26. -/
abbrev SnapshotWord := BitVec 27

/-- The decode word and the location word, 26 bits (R63, R62). -/
abbrev SelectWord := BitVec 26

end Sys2Proof
end

