-- ==== Sys2Proof/Config.lean ====
section
/-! DEFINITION. What one session fixes (spec/00_scope.md R6, spec/10_state.md R21 to R26): the mapping mode and the policies, as plain data. Each is a field of State, so a statement about every state is about every choice of them. The block's free values (spec/93_implementation_defined.md I6 to I8) are data of the schedule, in Machine/State.lean (log 9, 10, 11). -/

namespace Sys2Proof

/-- The closed enumeration of mapping modes (R2, R61), in the order of its codes. -/
inductive Mode where
  | loROM
  | hiROM
  | exLoROM
  | exHiROM
deriving DecidableEq, Repr

/-- The two modes that have a decode algorithm (R2): the first argument of SRAM_OFFSET_POLICY (R108). -/
inductive Layout where
  | lo
  | hi
deriving DecidableEq, Repr

/-- LOROM_MIRROR_POLICY, the three readings of the LoROM bank increment (R97). -/
inductive MirrorPolicy where
  | incMirrorOnly
  | noEffect
  | incWholeBranch
deriving DecidableEq, Repr

/-- SAMPLE_MODE (R83, R84). -/
inductive SampleMode where
  | atomic
  | sequential
deriving DecidableEq, Repr

/-- SRAM_OFFSET_POLICY (R108) as plain data: a formula in the folded address A' and the layout.
Every total function of (mode, A') to u24 is the value of some formula (`Laws.every_policy_expressible`; log 4). -/
inductive OffsetFormula where
  /-- A constant offset. `lit 0` is the policy ZERO. -/
  | lit (k : Addr)
  /-- The folded address A'. -/
  | addr
  | band (x y : OffsetFormula)
  | bor (x y : OffsetFormula)
  | plus (x y : OffsetFormula)
  | minus (x y : OffsetFormula)
  | shl (x : OffsetFormula) (n : Nat)
  | shr (x : OffsetFormula) (n : Nat)
  /-- One formula for LoROM and one for HiROM. -/
  | byLayout (lo hi : OffsetFormula)
  /-- `t` where `x` and `y` have the same value, else `e`. -/
  | ifEq (x y t e : OffsetFormula)
deriving DecidableEq, Repr

/-- The policy ZERO (R108): "always points at the start of the SRAM buffer". -/
def OffsetFormula.zero : OffsetFormula := .lit 0

end Sys2Proof
end

