-- ==== Sys2Proof/Syntax.lean ====
section
/-! DEFINITION. The operations of the block, one constructor per row of spec/opcode_table.json (spec/30_encoding.md R67 to R70). A row's operand is the whole operand word of its format: the console address `a` of a snapshot (R60) or of a fold class (R68), the folded address `a'` of a decode word (R63), the offset `k` of a location word (R62). WellFormed.lean says which operands a row admits. -/

namespace Sys2Proof

/-- The word formats of R60, R62, R63 and the raw 24-bit address of R68. -/
inductive Format where
  | snapshot
  | rawAddress
  | decodeWord
  | location
deriving DecidableEq, Repr

/-- The 32 rows of the operation map. -/
inductive Instr where
  /-- IDLE (R141). RD and WR are free. -/
  | idle (rd wr : Bool) (a : Addr)
  /-- ACTIVE_NONE (R142). -/
  | activeNone (a : Addr)
  /-- ACTIVE_READ (R143). -/
  | activeRead (a : Addr)
  /-- ACTIVE_WRITE (R144). -/
  | activeWrite (a : Addr)
  /-- ACTIVE_READ_WRITE (R145). -/
  | activeReadWrite (a : Addr)
  /-- NOFOLD_80 (R92), bank 0x80. -/
  | nofold80 (a : Addr)
  /-- FOLD_81 (R92), bank 0x81. -/
  | fold81 (a : Addr)
  /-- FOLD_82_83 (R92). -/
  | fold8283 (a : Addr)
  /-- FOLD_84_87 (R92). -/
  | fold8487 (a : Addr)
  /-- FOLD_88_8F (R92). -/
  | fold888F (a : Addr)
  /-- FOLD_90_9F (R92). -/
  | fold909F (a : Addr)
  /-- FOLD_A0_BF (R92). -/
  | foldA0BF (a : Addr)
  /-- FOLD_C0_FF (R92). -/
  | foldC0FF (a : Addr)
  /-- NOFOLD_LOW (R92), banks below 0x80. -/
  | nofoldLow (a : Addr)
  /-- LO_ROM_00_3F_HI (R95). -/
  | loRom003FHi (a' : Addr)
  /-- LO_MIRROR_00_3F_LO (R96). -/
  | loMirror003FLo (a' : Addr)
  /-- LO_ROM_40_5F (R98). -/
  | loRom405F (a' : Addr)
  /-- LO_ROM_60_6F (R98). -/
  | loRom606F (a' : Addr)
  /-- LO_SRAM_70_7F (R99). -/
  | loSram707F (a' : Addr)
  /-- LO_ROM_70_7F_HI (R100). -/
  | loRom707FHi (a' : Addr)
  /-- LO_SRAM_80 (R99). -/
  | loSram80 (a' : Addr)
  /-- LO_ROM_80_HI (R100). -/
  | loRom80Hi (a' : Addr)
  /-- HI_ROM_00_1F (R102). -/
  | hiRom001F (a' : Addr)
  /-- HI_SRAM_20_3F (R103). -/
  | hiSram203F (a' : Addr)
  /-- HI_ROM_20_3F_HI (R104). -/
  | hiRom203FHi (a' : Addr)
  /-- HI_ROM_40_7F (R105). -/
  | hiRom407F (a' : Addr)
  /-- HI_ROM_80 (R105). -/
  | hiRom80 (a' : Addr)
  /-- EX_LO_UNMAPPED (R106). -/
  | exLoUnmapped (a' : Addr)
  /-- EX_HI_UNMAPPED (R107). -/
  | exHiUnmapped (a' : Addr)
  /-- GET_UNMAPPED (R133). -/
  | getUnmapped (k : Addr)
  /-- GET_ROM (R131). -/
  | getRom (k : Addr)
  /-- GET_SRAM (R132). -/
  | getSram (k : Addr)
deriving DecidableEq, Repr

end Sys2Proof
end

