-- ==== Sys2Proof/WellFormed.lean ====
section
/-! DEFINITION. Which operands a row admits: the bank ranges and the offset-bit conditions of spec/30_encoding.md R68 and R69, and K = 0 for an Unmapped location word (R62). A snapshot row, GET_ROM, GET_SRAM and the two extended-mode rows admit every operand. -/

namespace Sys2Proof

/-- The bank of a console address, or the folded bank of a folded address: bits 23:16 (R41, R63), as a number. -/
def bankNat (a : Addr) : Nat := a.toNat / 0x10000

/-- The bank lies in an inclusive range of R68 or R69. -/
def bankIn (a : Addr) (lo hi : Nat) : Bool := lo ≤ bankNat a && bankNat a ≤ hi

/-- OFFSET[15] (R65): the offset is in the upper half of its bank. -/
def upperHalf (a : Addr) : Bool := a.getLsbD 15

/-- The check of a row's operand. -/
def Instr.wellFormed : Instr → Bool
  | .idle _ _ _ => true
  | .activeNone _ => true
  | .activeRead _ => true
  | .activeWrite _ => true
  | .activeReadWrite _ => true
  | .nofold80 a => bankIn a 0x80 0x80
  | .fold81 a => bankIn a 0x81 0x81
  | .fold8283 a => bankIn a 0x82 0x83
  | .fold8487 a => bankIn a 0x84 0x87
  | .fold888F a => bankIn a 0x88 0x8F
  | .fold909F a => bankIn a 0x90 0x9F
  | .foldA0BF a => bankIn a 0xA0 0xBF
  | .foldC0FF a => bankIn a 0xC0 0xFF
  | .nofoldLow a => bankIn a 0x00 0x7F
  | .loRom003FHi a' => bankIn a' 0x00 0x3F && upperHalf a'
  | .loMirror003FLo a' => bankIn a' 0x00 0x3F && !upperHalf a'
  | .loRom405F a' => bankIn a' 0x40 0x5F
  | .loRom606F a' => bankIn a' 0x60 0x6F
  | .loSram707F a' => bankIn a' 0x70 0x7F && !upperHalf a'
  | .loRom707FHi a' => bankIn a' 0x70 0x7F && upperHalf a'
  | .loSram80 a' => bankIn a' 0x80 0x80 && !upperHalf a'
  | .loRom80Hi a' => bankIn a' 0x80 0x80 && upperHalf a'
  | .hiRom001F a' => bankIn a' 0x00 0x1F
  | .hiSram203F a' => bankIn a' 0x20 0x3F && !upperHalf a'
  | .hiRom203FHi a' => bankIn a' 0x20 0x3F && upperHalf a'
  | .hiRom407F a' => bankIn a' 0x40 0x7F
  | .hiRom80 a' => bankIn a' 0x80 0x80
  | .exLoUnmapped _ => true
  | .exHiUnmapped _ => true
  | .getUnmapped k => k == 0
  | .getRom _ => true
  | .getSram _ => true

end Sys2Proof
end

