-- ==== Sys2Proof/Decode.lean ====
section
/-! DEFINITION. The decoder over the mask/match rows of spec/opcode_table.json (spec/30_encoding.md R67 to R70), total on every number and rejecting by name, and after it the encoder, written from the formats of R60, R62 and R63. -/

namespace Sys2Proof

/-- Why a word is no operation of its format (R71, I15). -/
inductive DecodeError where
  /-- A bit at or above the format's width is set. -/
  | excessBits
  /-- No row of the format matches: a decode word whose folded bank is above 0x80 in LoROM or HiROM, or a location word with TAG 0b11. -/
  | noRow
  /-- A row matches but its operand is outside what the format allows: a location word with TAG 0b00 and K other than 0. -/
  | badOperand
deriving DecidableEq, Repr

/-- The width of a format in bits (R60, R62, R63, R68). -/
def Format.width : Format → Nat
  | .snapshot => 27
  | .rawAddress => 24
  | .decodeWord => 26
  | .location => 26

/-- One row of the operation map: the words `w` with `w & mask = value`, and the operation they stand for. Words of every format are taken to 27 bits, the widest format's width. -/
structure Row where
  format : Format
  mask : BitVec 27
  value : BitVec 27
  build : BitVec 27 → Instr

/-- The row's test. -/
def Row.covers (r : Row) (f : Format) (w : BitVec 27) : Bool :=
  r.format == f && w &&& r.mask == r.value

/-- Bits 23:0 of a word: A, A' or K. -/
def operandOf (w : BitVec 27) : Addr := w.extractLsb' 0 24

/-- Bus-control classes (R67). -/
def busRows : List Row :=
  [
   ⟨.snapshot, 0x4000000, 0x0000000, fun w => .idle (w.getLsbD 24) (w.getLsbD 25) (operandOf w)⟩,
   ⟨.snapshot, 0x7000000, 0x4000000, fun w => .activeNone (operandOf w)⟩,
   ⟨.snapshot, 0x7000000, 0x5000000, fun w => .activeRead (operandOf w)⟩,
   ⟨.snapshot, 0x7000000, 0x6000000, fun w => .activeWrite (operandOf w)⟩,
   ⟨.snapshot, 0x7000000, 0x7000000, fun w => .activeReadWrite (operandOf w)⟩]

/-- Fold classes (R68). -/
def foldRows : List Row :=
  [
   ⟨.rawAddress, 0xFF0000, 0x800000, fun w => .nofold80 (operandOf w)⟩,
   ⟨.rawAddress, 0xFF0000, 0x810000, fun w => .fold81 (operandOf w)⟩,
   ⟨.rawAddress, 0xFE0000, 0x820000, fun w => .fold8283 (operandOf w)⟩,
   ⟨.rawAddress, 0xFC0000, 0x840000, fun w => .fold8487 (operandOf w)⟩,
   ⟨.rawAddress, 0xF80000, 0x880000, fun w => .fold888F (operandOf w)⟩,
   ⟨.rawAddress, 0xF00000, 0x900000, fun w => .fold909F (operandOf w)⟩,
   ⟨.rawAddress, 0xE00000, 0xA00000, fun w => .foldA0BF (operandOf w)⟩,
   ⟨.rawAddress, 0xC00000, 0xC00000, fun w => .foldC0FF (operandOf w)⟩,
   ⟨.rawAddress, 0x800000, 0x000000, fun w => .nofoldLow (operandOf w)⟩]

/-- Decode regions (R69). -/
def regionRows : List Row :=
  [
   ⟨.decodeWord, 0x3C08000, 0x0008000, fun w => .loRom003FHi (operandOf w)⟩,
   ⟨.decodeWord, 0x3C08000, 0x0000000, fun w => .loMirror003FLo (operandOf w)⟩,
   ⟨.decodeWord, 0x3E00000, 0x0400000, fun w => .loRom405F (operandOf w)⟩,
   ⟨.decodeWord, 0x3F00000, 0x0600000, fun w => .loRom606F (operandOf w)⟩,
   ⟨.decodeWord, 0x3F08000, 0x0700000, fun w => .loSram707F (operandOf w)⟩,
   ⟨.decodeWord, 0x3F08000, 0x0708000, fun w => .loRom707FHi (operandOf w)⟩,
   ⟨.decodeWord, 0x3FF8000, 0x0800000, fun w => .loSram80 (operandOf w)⟩,
   ⟨.decodeWord, 0x3FF8000, 0x0808000, fun w => .loRom80Hi (operandOf w)⟩,
   ⟨.decodeWord, 0x3E00000, 0x1000000, fun w => .hiRom001F (operandOf w)⟩,
   ⟨.decodeWord, 0x3E08000, 0x1200000, fun w => .hiSram203F (operandOf w)⟩,
   ⟨.decodeWord, 0x3E08000, 0x1208000, fun w => .hiRom203FHi (operandOf w)⟩,
   ⟨.decodeWord, 0x3C00000, 0x1400000, fun w => .hiRom407F (operandOf w)⟩,
   ⟨.decodeWord, 0x3FF0000, 0x1800000, fun w => .hiRom80 (operandOf w)⟩,
   ⟨.decodeWord, 0x3000000, 0x2000000, fun w => .exLoUnmapped (operandOf w)⟩,
   ⟨.decodeWord, 0x3000000, 0x3000000, fun w => .exHiUnmapped (operandOf w)⟩]

/-- Byte-mux selects (R70). -/
def muxRows : List Row :=
  [
   ⟨.location, 0x3000000, 0x0000000, fun w => .getUnmapped (operandOf w)⟩,
   ⟨.location, 0x3000000, 0x1000000, fun w => .getRom (operandOf w)⟩,
   ⟨.location, 0x3000000, 0x2000000, fun w => .getSram (operandOf w)⟩]

/-- The operation map, 32 rows. -/
def rows : List Row := busRows ++ foldRows ++ regionRows ++ muxRows

/-- The operation a word of a format stands for. -/
def decode (f : Format) (w : Nat) : Except DecodeError Instr :=
  if w < 2 ^ f.width then
    match rows.find? (fun r => r.covers f (BitVec.ofNat 27 w)) with
    | none => .error .noRow
    | some r =>
      let i := r.build (BitVec.ofNat 27 w)
      if i.wellFormed then .ok i else .error .badOperand
  else .error .excessBits

/-! The encoder. -/

/-- The snapshot word (R60). -/
def snapshotWord (cs wr rd : Bool) (a : Addr) : SnapshotWord :=
  BitVec.ofBool cs ++ BitVec.ofBool wr ++ BitVec.ofBool rd ++ a

/-- The 2-bit mode code (R61). -/
def Mode.code : Mode → BitVec 2
  | .loROM => 0b00
  | .hiROM => 0b01
  | .exLoROM => 0b10
  | .exHiROM => 0b11

/-- The mode of a code (R61); all four codes are legal (R21). -/
def Mode.ofCode (c : BitVec 2) : Mode :=
  if c = 0b00 then .loROM else if c = 0b01 then .hiROM else if c = 0b10 then .exLoROM else .exHiROM

/-- The decode word, DW = (MODE << 24) | A' (R63). -/
def regionWord (m : Mode) (a' : Addr) : SelectWord := m.code ++ a'

/-- The location word, TAG : K (R62). -/
def locationWord (tag : BitVec 2) (k : Addr) : SelectWord := tag ++ k

/-- The format a row's words have. -/
def Instr.format : Instr → Format
  | .idle _ _ _ | .activeNone _ | .activeRead _ | .activeWrite _ | .activeReadWrite _ => .snapshot
  | .nofold80 _ | .fold81 _ | .fold8283 _ | .fold8487 _ | .fold888F _ | .fold909F _ | .foldA0BF _ | .foldC0FF _
  | .nofoldLow _ => .rawAddress
  | .loRom003FHi _ | .loMirror003FLo _ | .loRom405F _ | .loRom606F _ | .loSram707F _ | .loRom707FHi _ | .loSram80 _
  | .loRom80Hi _ | .hiRom001F _ | .hiSram203F _ | .hiRom203FHi _ | .hiRom407F _ | .hiRom80 _ | .exLoUnmapped _
  | .exHiUnmapped _ => .decodeWord
  | .getUnmapped _ | .getRom _ | .getSram _ => .location

/-- The word of an operation. -/
def encode : Instr → Nat
  | .idle rd wr a => (snapshotWord false wr rd a).toNat
  | .activeNone a => (snapshotWord true false false a).toNat
  | .activeRead a => (snapshotWord true false true a).toNat
  | .activeWrite a => (snapshotWord true true false a).toNat
  | .activeReadWrite a => (snapshotWord true true true a).toNat
  | .nofold80 a | .fold81 a | .fold8283 a | .fold8487 a | .fold888F a | .fold909F a | .foldA0BF a | .foldC0FF a
  | .nofoldLow a => a.toNat
  | .loRom003FHi a' | .loMirror003FLo a' | .loRom405F a' | .loRom606F a' | .loSram707F a' | .loRom707FHi a'
  | .loSram80 a' | .loRom80Hi a' => (regionWord .loROM a').toNat
  | .hiRom001F a' | .hiSram203F a' | .hiRom203FHi a' | .hiRom407F a' | .hiRom80 a' => (regionWord .hiROM a').toNat
  | .exLoUnmapped a' => (regionWord .exLoROM a').toNat
  | .exHiUnmapped a' => (regionWord .exHiROM a').toNat
  | .getUnmapped k => (locationWord 0b00 k).toNat
  | .getRom k => (locationWord 0b01 k).toNat
  | .getSram k => (locationWord 0b10 k).toNat

/-! A word given without its format, as the host numbers the rows of spec/opcode_table.json. -/

/-- The format a bare word is read in. The spec has four formats and a word does not say its own (log 14).
A word of at most 24 bits is a raw address; one with bit 26 set can only be a snapshot; of the others a word that
is some decode word is read as one, else as a location word where it is one, else as a snapshot with CS deasserted. -/
def tableFormat (nbits w : Nat) : Format :=
  if nbits ≤ 24 then .rawAddress
  else if nbits = 27 || w.testBit 26 then .snapshot
  else if (decode .decodeWord w).toOption.isSome then .decodeWord
  else if (decode .location w).toOption.isSome then .location
  else .snapshot

/-- The operation the decoder reads from a row's word, bit 0 the least significant bit (R7). -/
def decodeTableWord (nbits w : Nat) : Option Instr :=
  (decode (tableFormat nbits (w % 2 ^ nbits)) (w % 2 ^ nbits)).toOption

end Sys2Proof
end

