-- ==== Sys2Proof/Machine/State.lean ====
section
/-! DEFINITION. The state of the block as plain data (spec/10_state.md), its environment's moves, the reasons a step can stop, and the state right after session start with nothing configured but the defaults (R33). -/

namespace Sys2Proof.Machine

/-- PHASE, the loop's sequencer (R27). FAILED and STOPPED are terminal. -/
inductive Phase where
  | sample
  | sendPending
  | failed
  | stopped
deriving DecidableEq, Repr

/-- A decoded location (R62): `Rom(k)`, `Sram(k)` or `Unmapped`. There is no constructor for the reserved TAG (R71). -/
inductive Location where
  | rom (k : Addr)
  | sram (k : Addr)
  | unmapped
deriving DecidableEq, Repr

/-- The outcome labels of R171 with what each records. -/
inductive Label where
  | idle
  | noRead (a : Addr)
  | writeIgnored (a : Addr)
  | sendIssued (a : Addr) (loc : Location) (d : Byte)
  | unmapped (a : Addr)
  | outOfRange (a : Addr) (loc : Location)
  | unsupportedMode (a : Addr) (m : Mode)
  | sent (d : Byte)
  | transportFail (d : Byte)
  | stop
deriving DecidableEq, Repr

/-- The electrical levels of the console's bus lines at one instant, high being true (R80, R81, R82). Bit N of `addr` is address line N. -/
structure Lines where
  addr : Addr
  rd : Bool
  wr : Bool
  cs : Bool
deriving DecidableEq, Repr

/-- What the environment leaves to one iteration's sample (R83, R84; log 10, 11): the bus states that followed the
present one while the iteration ran, oldest first, and the instant at which each line was read, as an index into
the present state followed by `later`. An index past the end reads the last state. -/
structure Window where
  later : List Lines
  /-- The instant t of an ATOMIC sample, and t0 of a SEQUENTIAL one, at which CS is read. -/
  t0 : Nat
  /-- SEQUENTIAL: the instant of address line N, at place N. A place the list does not reach is t0. -/
  tAddr : List Nat
  /-- SEQUENTIAL: the instant t2 at which RD is read. -/
  t2 : Nat
  /-- SEQUENTIAL: the WR bit of the snapshot, which the loop never reads (R84). A free value of the move (log 11). -/
  wr : Bool
deriving DecidableEq, Repr

/-- One move of an agent (R150), with the free values the spec leaves to it. -/
inductive Event where
  /-- The console sets its lines. -/
  | console (l : Lines)
  /-- The loop runs one iteration. -/
  | loop (w : Window)
  /-- The transport accepts the pending byte (R146). -/
  | accept
  /-- The transport fails the pending send (R147). `delivered`: whether the byte arrived all the same, a free value (I7; log 9). -/
  | fail (delivered : Bool)
  /-- The host stops the session (R149). `delivered`: whether a byte pending at the stop arrived, a free value (I8; log 9). -/
  | stop (delivered : Bool)
  /-- The MODEL's own move (log 13): the fold of a raw address alone (R92). -/
  | foldCall (a : Addr)
  /-- The MODEL's own move (log 13): the region dispatch of a folded address alone, in the session's MODE (R63). -/
  | regionCall (a' : Addr)
  /-- The MODEL's own move (log 13): the byte mux on a location word alone (R130). -/
  | muxCall (w : SelectWord)
deriving DecidableEq, Repr

/-- The MODEL's own result port (log 13): what a row whose rule writes no state returned. -/
inductive Result where
  | none
  /-- The pair (A', b) of R92. -/
  | folded (a' : Addr) (b : BitVec 8)
  /-- The optional byte of R130. -/
  | byte (v : Option Byte)
deriving DecidableEq, Repr

/-- The state of the block, field by field as spec/10_state.md R32 lists it. -/
structure State where
  /-- MODE (R21). -/
  mode : Mode
  /-- ROM (R22), in the canonical form of `Cells.wf`. -/
  rom : List Host.Cell
  /-- ROM_SIZE (R23). -/
  romSize : Nat
  /-- SRAM_SIZE_CLASS (R24). SRAM_SIZE is derived, `State.sramSize`. -/
  sramSizeClass : Byte
  /-- SRAM (R25), in the canonical form of `Cells.wf`. -/
  sram : List Host.Cell
  /-- LOROM_MIRROR_POLICY (R26, R97). -/
  mirrorPolicy : MirrorPolicy
  /-- SRAM_OFFSET_POLICY (R26, R108). -/
  sramPolicy : OffsetFormula
  /-- SAMPLE_MODE (R26, R83, R84). -/
  sampleMode : SampleMode
  /-- CTRL_ACTIVE_LOW (R6, R81). -/
  ctrlActiveLow : Bool
  /-- PHASE (R27). -/
  phase : Phase
  /-- ACTIVE (R28). -/
  active : Bool
  /-- SNAP (R29, R60). -/
  snap : SnapshotWord
  /-- LOC (R29). -/
  loc : Location
  /-- PENDING_BYTE (R30). -/
  pendingByte : Byte
  /-- SENT (R31), oldest first. -/
  sent : List Byte
  /-- The MODEL's own: the label of the last step that carries one (R171; log 18). -/
  outcome : Option Label
  /-- The MODEL's own result port (log 13). -/
  result : Result
  /-- The console's bus lines (R85, R150). -/
  bus : Lines
  /-- The agents' coming moves, next first (R150; log 8). -/
  schedule : List Event
deriving DecidableEq, Repr

/-- The named stops of the block. -/
inductive Fault where
  /-- Raised by an iteration, a unit call or an empty schedule while PHASE = SEND_PENDING: "the loop agent has no step" (R148, I9), a stuck state. Safe: the model stops where the hardware waits. -/
  | sendBlocked
  /-- Raised by every move but the console's in PHASE = FAILED, which is terminal (R150), a stuck state. Safe: the hardware has no step there. -/
  | sessionFailed
  /-- Raised by every move but the console's in PHASE = STOPPED, which is terminal (R150), a stuck state. Safe: the hardware has no step there. -/
  | sessionStopped
deriving DecidableEq, Repr

/-- What the model refuses by name. -/
inductive Refusal where
  /-- An operation of the table whose meaning is not written. Safe. No arm raises it. -/
  | notModelled (mnemonic : String)
  /-- Raised by a unit call whose word is no operation of its format (R71, I15: "refuse"). Safe: the loop never forms such a word. -/
  | unreachableWord (e : DecodeError)
  /-- Raised by ACCEPT or FAIL with PHASE = SAMPLE: "A script that breaks either condition is ill-formed" (R73). Safe: the transport has no such step. -/
  | noSendPending
  /-- Raised by `launch` where a configuration element that has no default (the ROM file, SRAM_SIZE_CLASS, MODE, CTRL_ACTIVE_LOW) is missing (R191, I14: "refuse"). Safe: the spec gives no behaviour. -/
  | incompleteConfiguration
  /-- Raised by `launch` where the save's length is not SRAM_SIZE (R192, I13: "refuse"). Safe: the spec gives no behaviour. -/
  | saveLengthMismatch
deriving DecidableEq, Repr

/-- Session start (R33) with the spec's defaults and, where the spec takes a session argument, the value of log 1, 2, 3, 5, 6 or 7. -/
def State.reset : State where
  mode := .loROM
  rom := []
  romSize := 0
  sramSizeClass := 0
  sram := []
  mirrorPolicy := .incMirrorOnly
  sramPolicy := .zero
  sampleMode := .atomic
  ctrlActiveLow := false
  phase := .sample
  active := false
  snap := 0
  loc := .unmapped
  pendingByte := 0
  sent := []
  outcome := none
  result := .none
  bus := ⟨0, false, false, false⟩
  schedule := []

end Sys2Proof.Machine
end

