-- ==== Sys2Proof/Machine/Ops.lean ====
section
/-! DEFINITION. The named operations over State that the meanings share: reading an image (spec/20_memory.md R40 to R46, spec/42_image_store.md R131, R132), writing a latch, the send (spec/43_bus_monitor_loop.md R146), taking the block's one fault (spec/60_exceptions.md R175) and the host stop (R149). There is no return from a fault (R176). -/

namespace Sys2Proof.Machine

/-- What an offset that is not listed in an image reads as: the zero byte of R192, and for ROM the encoding of log 19. -/
def unlistedByte : Byte := 0

/-- The byte listed at an offset. -/
def Cells.lookup : List Host.Cell → Nat → Byte
  | [], _ => unlistedByte
  | (j, b) :: rest, k => if j = k then b else Cells.lookup rest k

/-- Offsets strictly rise from `low`, and no entry equals what an unlisted offset reads as. -/
def Cells.wfFrom (low : Nat) : List Host.Cell → Bool
  | [] => true
  | (j, b) :: rest => low ≤ j && b != unlistedByte && Cells.wfFrom (j + 1) rest

/-- The canonical form of an image (log 19). -/
def Cells.wf (cells : List Host.Cell) : Bool := Cells.wfFrom 0 cells

/-- Every listed offset lies below the image's size (R22, R25). -/
def Cells.below (size : Nat) (cells : List Host.Cell) : Bool := cells.all (fun c => c.1 < size)

/-- A byte sequence as an image, its first byte at offset `k`: the load-time accessor of R134. -/
def Cells.ofBytesFrom (k : Nat) : List Byte → List Host.Cell
  | [] => []
  | b :: rest => if b = unlistedByte then Cells.ofBytesFrom (k + 1) rest else (k, b) :: Cells.ofBytesFrom (k + 1) rest

/-- A byte sequence as an image. -/
def Cells.ofBytes (bytes : List Byte) : List Host.Cell := Cells.ofBytesFrom 0 bytes

/-- The bounds-checked read of an image: an offset at or above the size is "never dereferenced" (R130). -/
def readImage (size : Nat) (cells : List Host.Cell) (k : Nat) : Option Byte :=
  if k < size then some (Cells.lookup cells k) else none

/-- SRAM_SIZE = 0x400 << SRAM_SIZE_CLASS (R24), with no cap (D12). -/
def sramBytes (cls : Byte) : Nat := 0x400 <<< cls.toNat

/-- SRAM_SIZE of the session. -/
def State.sramSize (s : State) : Nat := sramBytes s.sramSizeClass

/-- Both images are canonical and inside their sizes: the launch premise of R191. -/
def Memory.wf (s : State) : Bool :=
  Cells.wf s.rom && Cells.below s.romSize s.rom && Cells.wf s.sram && Cells.below s.sramSize s.sram

/-- ROM[k], bounds-checked (R131). -/
def State.romByte (s : State) (k : Addr) : Option Byte := readImage s.romSize s.rom k.toNat

/-- SRAM[k], bounds-checked (R132). -/
def State.sramByte (s : State) (k : Addr) : Option Byte := readImage s.sramSize s.sram k.toNat

/-! The updates. -/

/-- `SNAP <- word; ACTIVE <- SNAP.CS` (R140). -/
def State.withSample (s : State) (word : SnapshotWord) : State :=
  { s with snap := word, active := word.getLsbD 26 }

/-- `LOC <- loc`. -/
def State.withLoc (s : State) (loc : Location) : State := { s with loc := loc }

/-- The outcome label of the step (R171). -/
def State.withOutcome (s : State) (l : Label) : State := { s with outcome := some l }

/-- The value a row returned (log 13). -/
def State.withResult (s : State) (r : Result) : State := { s with result := r }

/-- `PENDING_BYTE <- d; PHASE <- SEND_PENDING` (R143). -/
def State.withPending (s : State) (d : Byte) : State := { s with pendingByte := d, phase := .sendPending }

/-- `phase <- P` (R9). -/
def State.withPhase (s : State) (p : Phase) : State := { s with phase := p }

/-- `SENT <- SENT ++ [d]` (R146). -/
def State.withSent (s : State) (d : Byte) : State := { s with sent := s.sent ++ [d] }

/-- The console's lines (R150). -/
def State.withBus (s : State) (l : Lines) : State := { s with bus := l }

/-- The moves that are left. -/
def State.withSchedule (s : State) (es : List Event) : State := { s with schedule := es }

/-- SENT gains the pending byte, or does not: the free value of R147 and R149 (log 9). -/
def State.deliverIf (s : State) (delivered : Bool) : State :=
  if delivered then s.withSent s.pendingByte else s

/-- `raise Fault(TRANSPORT_FAIL)` (R175): PHASE <- FAILED. Nothing is saved, no control moves, every other element stays. -/
def State.raiseTransportFail (s : State) : State := s.withPhase .failed

/-- The end of the session by the host (R149): PHASE <- STOPPED. -/
def State.endSession (s : State) : State := s.withPhase .stopped

/-- A move of the loop agent, which has a step only in PHASE = SAMPLE (R148, R150). -/
def whenSampling (s : State) (move : Host.Outcome State Fault Refusal) : Host.Outcome State Fault Refusal :=
  match s.phase with
  | .sample => move
  | .sendPending => .fault .sendBlocked
  | .failed => .fault .sessionFailed
  | .stopped => .fault .sessionStopped

/-- A move of the transport, which has a step only in PHASE = SEND_PENDING (R150, R73). -/
def whenSendPending (s : State) (move : Host.Outcome State Fault Refusal) : Host.Outcome State Fault Refusal :=
  match s.phase with
  | .sample => .refused .noSendPending
  | .sendPending => move
  | .failed => .fault .sessionFailed
  | .stopped => .fault .sessionStopped

/-- A move of the host, which has a step in PHASE = SAMPLE and SEND_PENDING (R149, R150). -/
def whenRunning (s : State) (move : Host.Outcome State Fault Refusal) : Host.Outcome State Fault Refusal :=
  match s.phase with
  | .sample => move
  | .sendPending => move
  | .failed => .fault .sessionFailed
  | .stopped => .fault .sessionStopped

end Sys2Proof.Machine
end

