-- ==== Sys2Proof/Machine/Operands.lean ====
section
/-! DEFINITION. Operand assembly and the decoder's arithmetic (spec/30_encoding.md R65, R66, spec/41_address_decoder.md R92, R93, R97, R108). No value here wraps (spec/00_scope.md R8). -/

namespace Sys2Proof.Machine

/-- bank = A[23:16] (R41). -/
def bankOf (a : Addr) : BitVec 8 := a.extractLsb' 16 8

/-- offset = A[15:0] (R41). -/
def offsetOf (a : Addr) : BitVec 16 := a.extractLsb' 0 16

/-- What the fold takes off a folded address (R92). -/
def topHalf : Addr := 0x800000

/-- The pair (A', b) of an address that is folded (R92). -/
def foldedDown (a : Addr) : Addr × BitVec 8 := (a - topHalf, bankOf a - 0x80)

/-- The pair (A', b) of an address that is not folded (R92). -/
def unfolded (a : Addr) : Addr × BitVec 8 := (a, bankOf a)

/-- Fold (R92). The comparison is strict: bank 0x80 is not folded (C1). -/
def fold (a : Addr) : Addr × BitVec 8 := if bankOf a > 0x80 then foldedDown a else unfolded a

/-- Cart (R93), with the source's literals (G3). -/
def cart (x : Addr) : Addr := ((x &&& 0x110000) >>> 1) + (x &&& 0x7FFF)

/-- The effective bank incremented by one (R97). -/
def nextBank (a' : Addr) : Addr := a' + 0x010000

/-- LoMirror (R97): the image offset for b < 0x40 with the offset in the lower half. -/
def loMirror : MirrorPolicy → Addr → Addr
  | .incMirrorOnly, a' => cart (nextBank a')
  | .noEffect, a' => cart a'
  | .incWholeBranch, a' => cart (nextBank a')

/-- The image offset for 0x40 <= b < 0x70 (R97, R98). -/
def loMiddle : MirrorPolicy → Addr → Addr
  | .incMirrorOnly, a' => cart a'
  | .noEffect, a' => cart a'
  | .incWholeBranch, a' => cart (nextBank a')

/-- The value of a policy formula. -/
def evalFormula : OffsetFormula → Layout → Addr → Addr
  | .lit k, _, _ => k
  | .addr, _, a' => a'
  | .band x y, m, a' => evalFormula x m a' &&& evalFormula y m a'
  | .bor x y, m, a' => evalFormula x m a' ||| evalFormula y m a'
  | .plus x y, m, a' => evalFormula x m a' + evalFormula y m a'
  | .minus x y, m, a' => evalFormula x m a' - evalFormula y m a'
  | .shl x n, m, a' => evalFormula x m a' <<< n
  | .shr x n, m, a' => evalFormula x m a' >>> n
  | .byLayout lo hi, m, a' => match m with
    | .lo => evalFormula lo m a'
    | .hi => evalFormula hi m a'
  | .ifEq x y t e, m, a' =>
    if evalFormula x m a' = evalFormula y m a' then evalFormula t m a' else evalFormula e m a'

/-- SramOffset (R108). -/
def sramOffset (p : OffsetFormula) (m : Layout) (a' : Addr) : Addr := evalFormula p m a'

/-- HiROM's offset for folded banks 0x40 and above (R105). -/
def hiUpper (a' : Addr) : Addr := a' - 0x400000

/-- The location word of a location (R62). -/
def Location.word : Location → SelectWord
  | .unmapped => locationWord 0b00 0
  | .rom k => locationWord 0b01 k
  | .sram k => locationWord 0b10 k

end Sys2Proof.Machine
end

