-- ==== Sys2Proof/Machine/Flags.lean ====
section
/-! DEFINITION. The outcome labels (spec/60_exceptions.md R171, R173). The block has no status flags or condition codes (spec/10_state.md R20); these labels are the one classification a step computes. "They are not a hardware register, and no rule reads them". -/

namespace Sys2Proof.Machine

/-- The numeric code of a label (R171). -/
def Label.code : Label → Nat
  | .idle => 0
  | .noRead _ => 1
  | .writeIgnored _ => 2
  | .sendIssued _ _ _ => 3
  | .unmapped _ => 4
  | .outOfRange _ _ => 5
  | .unsupportedMode _ _ => 6
  | .sent _ => 7
  | .transportFail _ => 8
  | .stop => 9

/-- The label of a read that found no byte (R143). UNMAPPED is unreachable (R110). -/
def noByteLabel (a : Addr) (m : Mode) (loc : Location) : Label :=
  match m with
  | .exLoROM => .unsupportedMode a m
  | .exHiROM => .unsupportedMode a m
  | .loROM => match loc with
    | .unmapped => .unmapped a
    | .rom k => .outOfRange a (.rom k)
    | .sram k => .outOfRange a (.sram k)
  | .hiROM => match loc with
    | .unmapped => .unmapped a
    | .rom k => .outOfRange a (.rom k)
    | .sram k => .outOfRange a (.sram k)

end Sys2Proof.Machine
end

