-- ==== Sys2Proof/Machine/BusSample.lean ====
section
/-! DEFINITION. BusSample (spec/40_bus_sample.md R80 to R87): from the console's line levels to one snapshot word. Sampling changes nothing but SNAP (R86). -/

namespace Sys2Proof.Machine

/-- `bit <- (CTRL_ACTIVE_LOW ? not level : level)` (R81). -/
def assertedBit (activeLow level : Bool) : Bool := if activeLow then !level else level

/-- The bus held still while the iteration ran; `wr` is SNAP's WR bit in SEQUENTIAL mode (R84, log 11). -/
def Window.still (wr : Bool) : Window := ⟨[], 0, [], 0, wr⟩

/-- The window of the loop's own poll. DESIGN CHOICE (log 8, 11): the bus holds still, and in SEQUENTIAL mode, where the
spec gives SNAP's WR bit no value, the bit is 1 when the WR line is asserted. Unsafe for that bit and its label alone. -/
def State.pollWindow (s : State) : Window := Window.still (assertedBit s.ctrlActiveLow s.bus.wr)

/-- The bus states of an iteration, the present one first. -/
def Window.states (w : Window) (now : Lines) : List Lines := now :: w.later

/-- The last bus state of an iteration. -/
def Window.lastBus (w : Window) (now : Lines) : Lines := w.later.getLastD now

/-- The bus at an instant of the iteration. -/
def Window.busAt (w : Window) (now : Lines) (t : Nat) : Lines := (w.states now).getD t (w.lastBus now)

/-- The instant of address line N, never before t0 (R84). -/
def Window.addrInstant (w : Window) (n : Nat) : Nat := max w.t0 (w.tAddr.getD n w.t0)

/-- The end t1 of the address-reading window (R84). -/
def Window.addrEnd (w : Window) : Nat := (List.range 24).foldl (fun t n => max t (w.addrInstant n)) w.t0

/-- The instant of RD, never before t1 (R84). -/
def Window.rdInstant (w : Window) : Nat := max w.addrEnd w.t2

/-- `A <- sum over N of (line_N << N)` (R82): bit N of the result is `f N`. -/
def assembleBits (f : Nat → Bool) : (n : Nat) → BitVec n
  | 0 => 0#0
  | n + 1 => BitVec.cons (f n) (assembleBits f n)

/-- The snapshot of one bus state (R83). -/
def atomicWord (activeLow : Bool) (l : Lines) : SnapshotWord :=
  snapshotWord (assertedBit activeLow l.cs) (assertedBit activeLow l.wr) (assertedBit activeLow l.rd)
    (assembleBits (fun n => l.addr.getLsbD n) 24)

/-- The snapshot of lines read one at a time (R84). -/
def sequentialWord (activeLow : Bool) (w : Window) (now : Lines) : SnapshotWord :=
  snapshotWord (assertedBit activeLow (w.busAt now w.t0).cs) w.wr
    (assertedBit activeLow (w.busAt now w.rdInstant).rd)
    (assembleBits (fun n => (w.busAt now (w.addrInstant n)).addr.getLsbD n) 24)

/-- Sample (R80), by SAMPLE_MODE. -/
def sampleWord (s : State) (w : Window) : SnapshotWord :=
  match s.sampleMode with
  | .atomic => atomicWord s.ctrlActiveLow (w.busAt s.bus w.t0)
  | .sequential => sequentialWord s.ctrlActiveLow w s.bus

/-- The line levels that sample to a snapshot word. -/
def linesFor (activeLow : Bool) (word : SnapshotWord) : Lines :=
  ⟨word.extractLsb' 0 24, assertedBit activeLow (word.getLsbD 24), assertedBit activeLow (word.getLsbD 25),
    assertedBit activeLow (word.getLsbD 26)⟩

end Sys2Proof.Machine
end

