-- ==== Sys2Proof/Machine/AddressDecoder.lean ====
section
/-! DEFINITION. AddressDecoder (spec/41_address_decoder.md): the decode algorithm the loop runs (R90, R91, R94, R101), and the meanings of the fold classes (R92) and decode regions (R95 to R107). A fold class returns the pair (A', b); a region writes LOC. -/

namespace Sys2Proof.Machine

/-! The algorithm. -/

/-- DecodeLo (R94). -/
def decodeLo (mp : MirrorPolicy) (sp : OffsetFormula) (a : Addr) : Location :=
  let a' := (fold a).1
  let b := (fold a).2
  let o := offsetOf a'
  if b < 0x40 ∧ o > 0x7FFF then .rom (cart a')
  else if b < 0x70 then
    if b < 0x40 then .rom (loMirror mp a') else .rom (loMiddle mp a')
  else if o < 0x8000 then .sram (sramOffset sp .lo a')
  else .rom (cart a')

/-- DecodeHi (R101). -/
def decodeHi (sp : OffsetFormula) (a : Addr) : Location :=
  let a' := (fold a).1
  let b := (fold a).2
  let o := offsetOf a'
  if b < 0x20 then .rom a'
  else if b < 0x40 then
    if o < 0x8000 then .sram (sramOffset sp .hi a') else .rom a'
  else .rom (hiUpper a')

/-- Decode (R90, R91), by MODE alone. -/
def decodeAddress (m : Mode) (mp : MirrorPolicy) (sp : OffsetFormula) (a : Addr) : Location :=
  match m with
  | .loROM => decodeLo mp sp a
  | .hiROM => decodeHi sp a
  | .exLoROM => .unmapped
  | .exHiROM => .unmapped

/-- `Decode(A, MODE)` of the session. -/
def State.decoded (s : State) (a : Addr) : Location := decodeAddress s.mode s.mirrorPolicy s.sramPolicy a

/-! The fold classes. -/

/-- A fold class answers its pair. -/
def returnFold (p : Addr × BitVec 8) (s : State) : Host.Outcome State Fault Refusal :=
  .next (s.withResult (.folded p.1 p.2))

/-- NOFOLD_80 (R92). -/
def execNofold80 (a : Addr) (s : State) : Host.Outcome State Fault Refusal := returnFold (unfolded a) s

/-- FOLD_81 (R92). -/
def execFold81 (a : Addr) (s : State) : Host.Outcome State Fault Refusal := returnFold (foldedDown a) s

/-- FOLD_82_83 (R92). -/
def execFold8283 (a : Addr) (s : State) : Host.Outcome State Fault Refusal := returnFold (foldedDown a) s

/-- FOLD_84_87 (R92). -/
def execFold8487 (a : Addr) (s : State) : Host.Outcome State Fault Refusal := returnFold (foldedDown a) s

/-- FOLD_88_8F (R92). -/
def execFold888F (a : Addr) (s : State) : Host.Outcome State Fault Refusal := returnFold (foldedDown a) s

/-- FOLD_90_9F (R92). -/
def execFold909F (a : Addr) (s : State) : Host.Outcome State Fault Refusal := returnFold (foldedDown a) s

/-- FOLD_A0_BF (R92). -/
def execFoldA0BF (a : Addr) (s : State) : Host.Outcome State Fault Refusal := returnFold (foldedDown a) s

/-- FOLD_C0_FF (R92). -/
def execFoldC0FF (a : Addr) (s : State) : Host.Outcome State Fault Refusal := returnFold (foldedDown a) s

/-- NOFOLD_LOW (R92). -/
def execNofoldLow (a : Addr) (s : State) : Host.Outcome State Fault Refusal := returnFold (unfolded a) s

/-! The decode regions. -/

/-- A region writes LOC and nothing else (R90). -/
def writeLoc (loc : Location) (s : State) : Host.Outcome State Fault Refusal := .next (s.withLoc loc)

/-- LO_ROM_00_3F_HI (R95). -/
def execLoRom003FHi (a' : Addr) (s : State) : Host.Outcome State Fault Refusal := writeLoc (.rom (cart a')) s

/-- LO_MIRROR_00_3F_LO (R96, R97). -/
def execLoMirror003FLo (a' : Addr) (s : State) : Host.Outcome State Fault Refusal :=
  writeLoc (.rom (loMirror s.mirrorPolicy a')) s

/-- LO_ROM_40_5F (R98). -/
def execLoRom405F (a' : Addr) (s : State) : Host.Outcome State Fault Refusal :=
  writeLoc (.rom (loMiddle s.mirrorPolicy a')) s

/-- LO_ROM_60_6F (R98). -/
def execLoRom606F (a' : Addr) (s : State) : Host.Outcome State Fault Refusal :=
  writeLoc (.rom (loMiddle s.mirrorPolicy a')) s

/-- LO_SRAM_70_7F (R99). -/
def execLoSram707F (a' : Addr) (s : State) : Host.Outcome State Fault Refusal :=
  writeLoc (.sram (sramOffset s.sramPolicy .lo a')) s

/-- LO_ROM_70_7F_HI (R100). -/
def execLoRom707FHi (a' : Addr) (s : State) : Host.Outcome State Fault Refusal := writeLoc (.rom (cart a')) s

/-- LO_SRAM_80 (R99). -/
def execLoSram80 (a' : Addr) (s : State) : Host.Outcome State Fault Refusal :=
  writeLoc (.sram (sramOffset s.sramPolicy .lo a')) s

/-- LO_ROM_80_HI (R100). -/
def execLoRom80Hi (a' : Addr) (s : State) : Host.Outcome State Fault Refusal := writeLoc (.rom (cart a')) s

/-- HI_ROM_00_1F (R102). -/
def execHiRom001F (a' : Addr) (s : State) : Host.Outcome State Fault Refusal := writeLoc (.rom a') s

/-- HI_SRAM_20_3F (R103). -/
def execHiSram203F (a' : Addr) (s : State) : Host.Outcome State Fault Refusal :=
  writeLoc (.sram (sramOffset s.sramPolicy .hi a')) s

/-- HI_ROM_20_3F_HI (R104). -/
def execHiRom203FHi (a' : Addr) (s : State) : Host.Outcome State Fault Refusal := writeLoc (.rom a') s

/-- HI_ROM_40_7F (R105). -/
def execHiRom407F (a' : Addr) (s : State) : Host.Outcome State Fault Refusal := writeLoc (.rom (hiUpper a')) s

/-- HI_ROM_80 (R105). -/
def execHiRom80 (a' : Addr) (s : State) : Host.Outcome State Fault Refusal := writeLoc (.rom (hiUpper a')) s

/-- EX_LO_UNMAPPED (R106). The operand is not read. -/
def execExLoUnmapped (_a' : Addr) (s : State) : Host.Outcome State Fault Refusal := writeLoc .unmapped s

/-- EX_HI_UNMAPPED (R107). The operand is not read. -/
def execExHiUnmapped (_a' : Addr) (s : State) : Host.Outcome State Fault Refusal := writeLoc .unmapped s

end Sys2Proof.Machine
end

