-- ==== Sys2Proof/Machine/ImageStore.lean ====
section
/-! DEFINITION. ImageStore, the ROM/SRAM byte mux (spec/42_image_store.md R130 to R135). It writes no state: a row's byte stands in the model's own result port (log 13). -/

namespace Sys2Proof.Machine

/-- `Get(loc)` (R130). -/
def State.get (s : State) : Location → Option Byte
  | .rom k => s.romByte k
  | .sram k => s.sramByte k
  | .unmapped => none

/-- A mux row answers its optional byte. -/
def returnByte (v : Option Byte) (s : State) : Host.Outcome State Fault Refusal := .next (s.withResult (.byte v))

/-- GET_UNMAPPED (R133). -/
def execGetUnmapped (_k : Addr) (s : State) : Host.Outcome State Fault Refusal := returnByte none s

/-- GET_ROM (R131). -/
def execGetRom (k : Addr) (s : State) : Host.Outcome State Fault Refusal := returnByte (s.romByte k) s

/-- GET_SRAM (R132). -/
def execGetSram (k : Addr) (s : State) : Host.Outcome State Fault Refusal := returnByte (s.sramByte k) s

end Sys2Proof.Machine
end

