-- ==== Sys2Proof/Machine/BusMonitorLoop.lean ====
section
/-! DEFINITION. BusMonitorLoop (spec/43_bus_monitor_loop.md): the five bus-control classes, each a whole iteration (R140 to R145), and the moves of the transport and the host (R146, R147, R149). -/

namespace Sys2Proof.Machine

/-! The iterations. -/

/-- Iteration head (R140): enabled only in PHASE = SAMPLE; latches SNAP and ACTIVE, then runs the class. -/
def iterate (word : SnapshotWord) (cls : State → State) (s : State) : Host.Outcome State Fault Refusal :=
  whenSampling s (.next (cls (s.withSample word)))

/-- `LOC <- Decode(SNAP.A, MODE)` (R142 to R145). -/
def State.runDecode (s : State) (a : Addr) : State := s.withLoc (s.decoded a)

/-- The read path after the decode (R143): a byte goes to the transport; nothing sends nothing. -/
def State.runRead (s : State) (a : Addr) : State :=
  match s.get s.loc with
  | some d => (s.withPending d).withOutcome (.sendIssued a s.loc d)
  | none => s.withOutcome (noByteLabel a s.mode s.loc)

/-- IDLE (R141). -/
def execIdle (rd wr : Bool) (a : Addr) (s : State) : Host.Outcome State Fault Refusal :=
  iterate (snapshotWord false wr rd a) (fun t => t.withOutcome .idle) s

/-- ACTIVE_NONE (R142). -/
def execActiveNone (a : Addr) (s : State) : Host.Outcome State Fault Refusal :=
  iterate (snapshotWord true false false a) (fun t => (t.runDecode a).withOutcome (.noRead a)) s

/-- ACTIVE_READ (R143). -/
def execActiveRead (a : Addr) (s : State) : Host.Outcome State Fault Refusal :=
  iterate (snapshotWord true false true a) (fun t => (t.runDecode a).runRead a) s

/-- ACTIVE_WRITE (R144): ignored. -/
def execActiveWrite (a : Addr) (s : State) : Host.Outcome State Fault Refusal :=
  iterate (snapshotWord true true false a) (fun t => (t.runDecode a).withOutcome (.writeIgnored a)) s

/-- ACTIVE_READ_WRITE (R145): as ACTIVE_READ. -/
def execActiveReadWrite (a : Addr) (s : State) : Host.Outcome State Fault Refusal :=
  iterate (snapshotWord true true true a) (fun t => (t.runDecode a).runRead a) s

/-! The transport and the host. -/

/-- SEND accepted (R146). -/
def acceptSend (s : State) : Host.Outcome State Fault Refusal :=
  whenSendPending s (.next (((s.withSent s.pendingByte).withPhase .sample).withOutcome (.sent s.pendingByte)))

/-- SEND failed (R147). `delivered` is the transport's free value (log 9). -/
def failSend (delivered : Bool) (s : State) : Host.Outcome State Fault Refusal :=
  whenSendPending s (.next ((s.deliverIf delivered).raiseTransportFail.withOutcome (.transportFail s.pendingByte)))

/-- Host stop (R149). A byte pending at the stop may or may not be delivered (log 9). -/
def hostStop (delivered : Bool) (s : State) : Host.Outcome State Fault Refusal :=
  whenRunning s (.next ((s.deliverIf (delivered && s.phase == .sendPending)).endSession.withOutcome .stop))

end Sys2Proof.Machine
end

