-- ==== Sys2Proof/Machine/Dispatch.lean ====
section
/-! DEFINITION. The dispatch: one arm per row of spec/opcode_table.json. -/

namespace Sys2Proof.Machine

def exec (i : Instr) (s : State) : Host.Outcome State Fault Refusal :=
  match i with
  | .idle rd wr a => Sys2Proof.Machine.execIdle rd wr a s
  | .activeNone a => Sys2Proof.Machine.execActiveNone a s
  | .activeRead a => Sys2Proof.Machine.execActiveRead a s
  | .activeWrite a => Sys2Proof.Machine.execActiveWrite a s
  | .activeReadWrite a => Sys2Proof.Machine.execActiveReadWrite a s
  | .nofold80 a => Sys2Proof.Machine.execNofold80 a s
  | .fold81 a => Sys2Proof.Machine.execFold81 a s
  | .fold8283 a => Sys2Proof.Machine.execFold8283 a s
  | .fold8487 a => Sys2Proof.Machine.execFold8487 a s
  | .fold888F a => Sys2Proof.Machine.execFold888F a s
  | .fold909F a => Sys2Proof.Machine.execFold909F a s
  | .foldA0BF a => Sys2Proof.Machine.execFoldA0BF a s
  | .foldC0FF a => Sys2Proof.Machine.execFoldC0FF a s
  | .nofoldLow a => Sys2Proof.Machine.execNofoldLow a s
  | .loRom003FHi a' => Sys2Proof.Machine.execLoRom003FHi a' s
  | .loMirror003FLo a' => Sys2Proof.Machine.execLoMirror003FLo a' s
  | .loRom405F a' => Sys2Proof.Machine.execLoRom405F a' s
  | .loRom606F a' => Sys2Proof.Machine.execLoRom606F a' s
  | .loSram707F a' => Sys2Proof.Machine.execLoSram707F a' s
  | .loRom707FHi a' => Sys2Proof.Machine.execLoRom707FHi a' s
  | .loSram80 a' => Sys2Proof.Machine.execLoSram80 a' s
  | .loRom80Hi a' => Sys2Proof.Machine.execLoRom80Hi a' s
  | .hiRom001F a' => Sys2Proof.Machine.execHiRom001F a' s
  | .hiSram203F a' => Sys2Proof.Machine.execHiSram203F a' s
  | .hiRom203FHi a' => Sys2Proof.Machine.execHiRom203FHi a' s
  | .hiRom407F a' => Sys2Proof.Machine.execHiRom407F a' s
  | .hiRom80 a' => Sys2Proof.Machine.execHiRom80 a' s
  | .exLoUnmapped a' => Sys2Proof.Machine.execExLoUnmapped a' s
  | .exHiUnmapped a' => Sys2Proof.Machine.execExHiUnmapped a' s
  | .getUnmapped k => Sys2Proof.Machine.execGetUnmapped k s
  | .getRom k => Sys2Proof.Machine.execGetRom k s
  | .getSram k => Sys2Proof.Machine.execGetSram k s

end Sys2Proof.Machine
end

