-- ==== Sys2Proof/Machine/Schedule.lean ====
section
/-! DEFINITION. The step relation (spec/43_bus_monitor_loop.md R150): one move of the agent the schedule names, and the loop's own move where it names none (log 8). -/

namespace Sys2Proof.Machine

/-- Run the operation a word stands for. -/
def runWord (f : Format) (w : Nat) (s : State) : Host.Outcome State Fault Refusal :=
  match decode f w with
  | .ok i => exec i s
  | .error e => .refused (.unreachableWord e)

/-- The loop's move (R140): sample, and run the class of the snapshot. The bus keeps the last state the console gave it. -/
def runLoop (w : Window) (s : State) : Host.Outcome State Fault Refusal :=
  runWord .snapshot (sampleWord s w).toNat (s.withBus (w.lastBus s.bus))

/-- One row run on its own, by the loop agent (log 13). -/
def runUnit (f : Format) (w : Nat) (s : State) : Host.Outcome State Fault Refusal := whenSampling s (runWord f w s)

/-- One move. -/
def runEvent (e : Event) (s : State) : Host.Outcome State Fault Refusal :=
  match e with
  | .console l => .next (s.withBus l)
  | .loop w => runLoop w s
  | .accept => acceptSend s
  | .fail delivered => failSend delivered s
  | .stop delivered => hostStop delivered s
  | .foldCall a => runUnit .rawAddress a.toNat s
  | .regionCall a' => runUnit .decodeWord (regionWord s.mode a').toNat s
  | .muxCall w => runUnit .location w.toNat s

/-- The next move of the schedule; with none left, the loop polls a bus that holds still (log 8). -/
def nextMove (s : State) : Host.Outcome State Fault Refusal :=
  match s.schedule with
  | [] => runLoop s.pollWindow s
  | e :: rest => runEvent e (s.withSchedule rest)

/-- Place a snapshot word on the console's bus and give the loop the next move. -/
def placeSnapshot (s : State) (word : SnapshotWord) : State :=
  { s with
    phase := .sample
    bus := linesFor s.ctrlActiveLow word
    schedule := .loop (Window.still (word.getLsbD 25)) :: s.schedule }

/-- Give the move `e` to the loop next. -/
def placeCall (s : State) (e : Event) : State := { s with phase := .sample, schedule := e :: s.schedule }

/-- Place a bare word where the next step runs it, in the format `tableFormat` reads it in (log 14). -/
def placeWord (s : State) (nbits w : Nat) : State :=
  match tableFormat nbits w with
  | .snapshot => placeSnapshot s (BitVec.ofNat 27 w)
  | .rawAddress => placeCall s (.foldCall (BitVec.ofNat 24 w))
  | .decodeWord =>
    placeCall { s with mode := Mode.ofCode (BitVec.ofNat 2 (w >>> 24)) } (.regionCall (BitVec.ofNat 24 w))
  | .location => placeCall s (.muxCall (BitVec.ofNat 26 w))

end Sys2Proof.Machine
end

