-- ==== Sys2Proof/Machine/Step.lean ====
section
/-! DEFINITION. One step of the block and its environment (spec/43_bus_monitor_loop.md R150), and the placing of a word where the next step runs it. -/

namespace Sys2Proof.Machine

/-- One step: next, fault or refusal. -/
def step (s : State) : Host.Outcome State Fault Refusal := nextMove s

/-- `s` with a row's word placed so that the next step runs it (log 14, 22). -/
def State.withFetchWord (s : State) (nbits w : Nat) : State := placeWord s nbits (w % 2 ^ nbits)

end Sys2Proof.Machine
end

