-- ==== Sys2Proof/Machine/Session.lean ====
section
/-! DEFINITION. Session start (spec/70_reset_and_hazards.md R190 to R193): from the loader's files and the configuration to the first state of a session, refused where the launch premises of R191 do not hold (log 20). It is no step of the machine: a session starts from outside the block. -/

namespace Sys2Proof.Machine

/-- The SMC header's length in bytes (R5). -/
def smcHeaderLength : Nat := 512

/-- What the loader and the configuration supply (R190). `none` is "not supplied": a policy then takes its default
(R6, R33; log 25), and any other element of the configuration has none. -/
structure LaunchArgs where
  /-- The ROM file, with its SMC header if it has one (R190 step 1). -/
  romFile : Option (List Byte)
  /-- Whether the ROM file has an SMC header: the loader's finding, whose test is not in source (N14). -/
  smcHeader : Bool
  /-- The save file, if a save exists. -/
  save : Option (List Byte)
  /-- SRAM_SIZE_CLASS (R24). -/
  sramSizeClass : Option Byte
  /-- MODE (R193). -/
  mode : Option Mode
  /-- LOROM_MIRROR_POLICY (R97). -/
  mirrorPolicy : Option MirrorPolicy
  /-- SRAM_OFFSET_POLICY (R108). -/
  sramPolicy : Option OffsetFormula
  /-- SAMPLE_MODE (R83, R84). -/
  sampleMode : Option SampleMode
  /-- CTRL_ACTIVE_LOW (R6, D2). -/
  ctrlActiveLow : Option Bool
  /-- The console's lines when the session starts. -/
  bus : Lines
  /-- The agents' moves to come. -/
  schedule : List Event
deriving DecidableEq, Repr

/-- LOROM_MIRROR_POLICY of the session, by default INC_MIRROR_ONLY (R6, R33). -/
def LaunchArgs.mirrorPolicySet (x : LaunchArgs) : MirrorPolicy := x.mirrorPolicy.getD .incMirrorOnly

/-- SRAM_OFFSET_POLICY of the session, by default ZERO (R6, R33). -/
def LaunchArgs.sramPolicySet (x : LaunchArgs) : OffsetFormula := x.sramPolicy.getD .zero

/-- SAMPLE_MODE of the session, by default ATOMIC (R6, R33). -/
def LaunchArgs.sampleModeSet (x : LaunchArgs) : SampleMode := x.sampleMode.getD .atomic

/-- The header-stripped image (R22, R190 step 2). DESIGN CHOICE (log 24): a file that is said to have the header and is
shorter than it leaves an empty image; the spec says nothing of such a file. Unsafe for that launch alone. -/
def stripSmc (smcHeader : Bool) (file : List Byte) : List Byte :=
  if smcHeader then file.drop smcHeaderLength else file

/-- The state of R33 over a complete configuration. -/
def sessionState (image : List Byte) (cls : Byte) (save : List Byte) (m : Mode) (mp : MirrorPolicy)
    (sp : OffsetFormula) (sm : SampleMode) (low : Bool) (bus : Lines) (schedule : List Event) : State :=
  { State.reset with
    mode := m
    rom := Cells.ofBytes image
    romSize := image.length
    sramSizeClass := cls
    sram := Cells.ofBytes save
    mirrorPolicy := mp
    sramPolicy := sp
    sampleMode := sm
    ctrlActiveLow := low
    bus := bus
    schedule := schedule }

/-- Session start. With no save, SRAM is all zero (R192); a save must have exactly SRAM_SIZE bytes (I13).
DEDUCED (log 25): a policy that is not supplied is set to the default of R6, which meets R191's "every policy parameter is set". -/
def launch (x : LaunchArgs) : Host.Outcome State Fault Refusal :=
  match x.romFile, x.sramSizeClass, x.mode, x.ctrlActiveLow with
  | some file, some cls, some m, some low =>
    let start (save : List Byte) :=
      sessionState (stripSmc x.smcHeader file) cls save m x.mirrorPolicySet x.sramPolicySet x.sampleModeSet low x.bus
        x.schedule
    match x.save with
    | none => .next (start [])
    | some save => if save.length = sramBytes cls then .next (start save) else .refused .saveLengthMismatch
  | _, _, _, _ => .refused .incompleteConfiguration

/-! The bus script of R73, as moves of the schedule. -/

/-- `CYCLE cs rd wr a`: the console holds this bus state; the loop runs one iteration with it. DESIGN CHOICE (log 26):
R73 gives a CYCLE its meaning in ATOMIC mode; in a SEQUENTIAL session the model runs the iteration on the bus held still,
with SNAP's WR bit the statement's wr. Unsafe for a SEQUENTIAL session alone. -/
def scriptCycle (activeLow cs rd wr : Bool) (a : Addr) : List Event :=
  [.console (linesFor activeLow (snapshotWord cs wr rd a)), .loop (Window.still wr)]

/-- `READ a`. -/
def scriptRead (activeLow : Bool) (a : Addr) : List Event := scriptCycle activeLow true true false a

/-- `WRITE a`. -/
def scriptWrite (activeLow : Bool) (a : Addr) : List Event := scriptCycle activeLow true false true a

/-- `DESELECT`. -/
def scriptDeselect (activeLow : Bool) : List Event := scriptCycle activeLow false false false 0x000000

/-- `SELECT a`. -/
def scriptSelect (activeLow : Bool) (a : Addr) : List Event := scriptCycle activeLow true false false a

end Sys2Proof.Machine
end

