-- ==== Sys2Proof/Safety.lean ====
section
/-! DEFINITION. What the claims call a safe state and a step that keeps a session's configuration. -/

namespace Sys2Proof.Machine

/-- A byte that is being sent is the byte at LOC (R30, R143). -/
def SendConsistent (s : State) : Prop := s.phase = .sendPending → s.get s.loc = some s.pendingByte

/-- LOC is a location the decoder of the session's mode produces, or the Unmapped of session start (R109, R110). -/
def LocInRange (s : State) : Prop :=
  match s.loc with
  | .unmapped => True
  | .rom k => (s.mode = .loROM ∧ k.toNat ≤ 0x8FFFF) ∨ (s.mode = .hiROM ∧ k.toNat ≤ 0x40FFFF)
  | .sram _ => s.mode = .loROM ∨ s.mode = .hiROM

/-- ACTIVE is the sampled CS (R28, R140). -/
def ActiveIsSelect (s : State) : Prop := s.active = s.snap.getLsbD 26

/-- The invariant of a session. -/
structure Safe (s : State) : Prop where
  images : Memory.wf s = true
  send : SendConsistent s
  loc : LocInRange s
  active : ActiveIsSelect s

/-- The configuration and the two images are the same in two states (R20, R32: written at session start only). -/
structure SameSession (s t : State) : Prop where
  mode : t.mode = s.mode
  rom : t.rom = s.rom
  romSize : t.romSize = s.romSize
  sramSizeClass : t.sramSizeClass = s.sramSizeClass
  sram : t.sram = s.sram
  mirrorPolicy : t.mirrorPolicy = s.mirrorPolicy
  sramPolicy : t.sramPolicy = s.sramPolicy
  sampleMode : t.sampleMode = s.sampleMode
  ctrlActiveLow : t.ctrlActiveLow = s.ctrlActiveLow

/-- Every byte of both images reads the same in two states. -/
def SameBytes (s t : State) : Prop := (∀ k, t.romByte k = s.romByte k) ∧ (∀ k, t.sramByte k = s.sramByte k)

/-- What the environment holds is the same in two states. -/
def SameEnvironment (s t : State) : Prop := t.bus = s.bus ∧ t.schedule = s.schedule

/-- The loop's latches, the send and the model's own fields are the same in two states. -/
structure SameLoop (s t : State) : Prop where
  phase : t.phase = s.phase
  active : t.active = s.active
  snap : t.snap = s.snap
  loc : t.loc = s.loc
  pendingByte : t.pendingByte = s.pendingByte
  sent : t.sent = s.sent
  outcome : t.outcome = s.outcome
  result : t.result = s.result

end Sys2Proof.Machine
end

