-- ==== Sys2Proof/Certificates/Slice0/Obligations.lean ====
section
/-! DEFINITION. The statements for the provers. First the decoder as spec/00_scope.md R8 writes it, on unsigned natural numbers, so that the statements say what the machine's words must agree with; then the statements, file by file of spec/. -/

namespace Sys2Proof.Reading

/-- `bank = address >> 16` (R41). -/
def bank (A : Nat) : Nat := A >>> 16

/-- `address & 0xFFFF` (R41). -/
def offset (A : Nat) : Nat := A &&& 0xFFFF

/-- Fold (R92). -/
def fold (A : Nat) : Nat × Nat := if bank A > 0x80 then (A - 0x800000, bank A - 0x80) else (A, bank A)

/-- Cart (R93). -/
def cart (X : Nat) : Nat := ((X &&& 0x110000) >>> 1) + (X &&& 0x7FFF)

/-- The offset LoROM gives an address of folded bank below 0x40 in the lower half (R97). -/
def loMirror (p : MirrorPolicy) (A' : Nat) : Nat :=
  match p with
  | .incMirrorOnly => cart (A' + 0x010000)
  | .noEffect => cart A'
  | .incWholeBranch => cart (A' + 0x010000)

/-- The offset LoROM gives an address of folded bank 0x40 to 0x6F (R97, R98). -/
def loMiddle (p : MirrorPolicy) (A' : Nat) : Nat :=
  match p with
  | .incMirrorOnly => cart A'
  | .noEffect => cart A'
  | .incWholeBranch => cart (A' + 0x010000)

/-- A location over natural offsets (R9). -/
inductive Place where
  | rom (k : Nat)
  | sram (k : Nat)
  | unmapped
deriving DecidableEq, Repr

/-- A location of the machine as a place. -/
def place : Machine.Location → Place
  | .rom k => .rom k.toNat
  | .sram k => .sram k.toNat
  | .unmapped => .unmapped

/-- DecodeLo (R94), its cases in order. -/
def decodeLo (p : MirrorPolicy) (sramOffset : Layout → Nat → Nat) (A : Nat) : Place :=
  let A' := (fold A).1
  let b := (fold A).2
  let o := offset A'
  if b < 0x40 ∧ o > 0x7FFF then .rom (cart A')
  else if b < 0x70 then
    if b < 0x40 then .rom (loMirror p A') else .rom (loMiddle p A')
  else if o < 0x8000 then .sram (sramOffset .lo A')
  else .rom (cart A')

/-- DecodeHi (R101), its cases in order. -/
def decodeHi (sramOffset : Layout → Nat → Nat) (A : Nat) : Place :=
  let A' := (fold A).1
  let b := (fold A).2
  let o := offset A'
  if b < 0x20 then .rom A'
  else if b < 0x40 then
    if o < 0x8000 then .sram (sramOffset .hi A') else .rom A'
  else .rom (A' - 0x400000)

/-- Decode (R91). -/
def decode (m : Mode) (p : MirrorPolicy) (sramOffset : Layout → Nat → Nat) (A : Nat) : Place :=
  match m with
  | .loROM => decodeLo p sramOffset A
  | .hiROM => decodeHi sramOffset A
  | .exLoROM => .unmapped
  | .exHiROM => .unmapped

/-- A policy formula as a function of natural numbers. -/
def policy (f : OffsetFormula) (l : Layout) (A' : Nat) : Nat := (Machine.sramOffset f l (BitVec.ofNat 24 A')).toNat

/-- A bit as a number. -/
def bit (b : Bool) : Nat := if b then 1 else 0

/-- The number of a snapshot word (R60). -/
def snapshot (cs wr rd : Bool) (a : Addr) : Nat := a.toNat + bit rd * 0x1000000 + bit wr * 0x2000000 + bit cs * 0x4000000

end Sys2Proof.Reading

open Sys2Proof Sys2Proof.Machine

/-! ## Encodings (spec/30_encoding.md) -/

/-- R67: each sample falls in exactly one bus-control class, the one its CS, RD and WR bits name. -/
def Obligations.EverySampleIsOneOperation : Prop :=
  ∀ w : SnapshotWord,
    (rows.filter (fun r => r.covers .snapshot w)).length = 1 ∧
    decode .snapshot w.toNat = .ok
      (if w.getLsbD 26 = false then .idle (w.getLsbD 24) (w.getLsbD 25) (w.extractLsb' 0 24)
       else if w.getLsbD 24 = false then
         if w.getLsbD 25 = false then .activeNone (w.extractLsb' 0 24) else .activeWrite (w.extractLsb' 0 24)
       else if w.getLsbD 25 = false then .activeRead (w.extractLsb' 0 24) else .activeReadWrite (w.extractLsb' 0 24))

/-- R68: the fold rows match every 24-bit address exactly once, by its bank. -/
def Obligations.EveryAddressHasOneFoldClass : Prop :=
  ∀ a : Addr,
    (rows.filter (fun r => r.covers .rawAddress (BitVec.ofNat 27 a.toNat))).length = 1 ∧
    decode .rawAddress a.toNat = .ok
      (if Reading.bank a.toNat < 0x80 then .nofoldLow a
       else if Reading.bank a.toNat = 0x80 then .nofold80 a
       else if Reading.bank a.toNat = 0x81 then .fold81 a
       else if Reading.bank a.toNat ≤ 0x83 then .fold8283 a
       else if Reading.bank a.toNat ≤ 0x87 then .fold8487 a
       else if Reading.bank a.toNat ≤ 0x8F then .fold888F a
       else if Reading.bank a.toNat ≤ 0x9F then .fold909F a
       else if Reading.bank a.toNat ≤ 0xBF then .foldA0BF a
       else .foldC0FF a)

/-- R69: for every reachable decode word exactly one region row matches, by MODE, FBANK and OFFSET[15]. -/
def Obligations.EveryFoldedAddressHasOneRegion : Prop :=
  ∀ (m : Mode) (a' : Addr), Reading.bank a'.toNat ≤ 0x80 →
    (regionWord m a').toNat = m.code.toNat * 0x1000000 + a'.toNat ∧
    (rows.filter (fun r => r.covers .decodeWord (BitVec.ofNat 27 (regionWord m a').toNat))).length = 1 ∧
    decode .decodeWord (regionWord m a').toNat = .ok
      (match m with
       | .loROM =>
         if Reading.bank a'.toNat < 0x40 then
           if Reading.offset a'.toNat ≥ 0x8000 then .loRom003FHi a' else .loMirror003FLo a'
         else if Reading.bank a'.toNat < 0x60 then .loRom405F a'
         else if Reading.bank a'.toNat < 0x70 then .loRom606F a'
         else if Reading.bank a'.toNat < 0x80 then
           if Reading.offset a'.toNat ≥ 0x8000 then .loRom707FHi a' else .loSram707F a'
         else if Reading.offset a'.toNat ≥ 0x8000 then .loRom80Hi a' else .loSram80 a'
       | .hiROM =>
         if Reading.bank a'.toNat < 0x20 then .hiRom001F a'
         else if Reading.bank a'.toNat < 0x40 then
           if Reading.offset a'.toNat ≥ 0x8000 then .hiRom203FHi a' else .hiSram203F a'
         else if Reading.bank a'.toNat < 0x80 then .hiRom407F a'
         else .hiRom80 a'
       | .exLoROM => .exLoUnmapped a'
       | .exHiROM => .exHiUnmapped a')

/-- R70: the TAG of a location's word selects its mux row, and K is its offset. -/
def Obligations.EveryLocationHasOneMuxRow : Prop :=
  ∀ loc : Location,
    (rows.filter (fun r => r.covers .location (BitVec.ofNat 27 loc.word.toNat))).length = 1 ∧
    decode .location loc.word.toNat = .ok
      (match loc with
       | .unmapped => .getUnmapped 0
       | .rom k => .getRom k
       | .sram k => .getSram k)

/-- The words of R71 that no operation stands for are refused by name (93_implementation_defined.md I15; log 17). -/
def Obligations.UnreachableWordsAreRefused : Prop :=
  (∀ (m : Mode) (a' : Addr), (m = .loROM ∨ m = .hiROM) → Reading.bank a'.toNat > 0x80 →
    decode .decodeWord (regionWord m a').toNat = .error .noRow) ∧
  (∀ k : Addr, decode .location (locationWord 0b11 k).toNat = .error .noRow) ∧
  (∀ k : Addr, k ≠ 0 → decode .location (locationWord 0b00 k).toNat = .error .badOperand) ∧
  (∀ (f : Format) (w : Nat), 2 ^ f.width ≤ w → decode f w = .error .excessBits)

/-- Decoding an encoded well-formed operation gives it back. -/
def Obligations.DecodeOfEncodeIsTheOperation : Prop :=
  ∀ i : Instr, i.wellFormed = true → decode i.format (encode i) = .ok i

/-- A decoded word is the encoding of a well-formed operation of its format. -/
def Obligations.EncodeOfDecodeIsTheWord : Prop :=
  ∀ (f : Format) (w : Nat) (i : Instr), decode f w = .ok i → i.format = f ∧ encode i = w ∧ i.wellFormed = true

/-- Words written out from R60, R62, R63 and the match column of R67 to R70, with the vectors of 95_test_vectors.md. -/
def Obligations.WrittenWordsDecode : Prop :=
  decode .snapshot 0b101000000001000000000000000 = .ok (.activeRead 0x008000) ∧
  decode .snapshot 0b110011100000000000000000000 = .ok (.activeWrite 0x700000) ∧
  decode .snapshot 0b001000000001000000000000000 = .ok (.idle true false 0x008000) ∧
  decode .rawAddress 0b100000011000000000000000 = .ok (.fold81 0x818000) ∧
  decode .rawAddress 0b100000000000000000000000 = .ok (.nofold80 0x800000) ∧
  decode .decodeWord 0b00011111111111111111111111 = .ok (.loRom707FHi 0x7FFFFF) ∧
  decode .decodeWord 0b01001000000111111111111111 = .ok (.hiSram203F 0x207FFF) ∧
  decode .decodeWord 0b11100000000000000000000000 = .ok (.exHiUnmapped 0x800000) ∧
  decode .location 0b01000010001111111111111111 = .ok (.getRom 0x08FFFF) ∧
  decode .location 0b10000000000001111111111111 = .ok (.getSram 0x001FFF)

/-! ## BusSample (spec/40_bus_sample.md) -/

/-- R81, R82, R83: in ATOMIC mode every bit of the snapshot comes from one bus state of the iteration; a control bit is
1 when its line is asserted, and address line N gives bit N. -/
def Obligations.AtomicSampleIsOneBusState : Prop :=
  ∀ (s : State) (w : Window), s.sampleMode = .atomic →
    ∃ l ∈ s.bus :: w.later,
      (sampleWord s w).getLsbD 26 = (if s.ctrlActiveLow then !l.cs else l.cs) ∧
      (sampleWord s w).getLsbD 25 = (if s.ctrlActiveLow then !l.wr else l.wr) ∧
      (sampleWord s w).getLsbD 24 = (if s.ctrlActiveLow then !l.rd else l.rd) ∧
      (∀ n, n < 24 → (sampleWord s w).getLsbD n = l.addr.getLsbD n)

/-- R84: in SEQUENTIAL mode CS is read first, each address bit from the bus state at an instant of its own, and RD no
earlier than any of them. -/
def Obligations.SequentialSampleReadsLinesInOrder : Prop :=
  ∀ (s : State) (w : Window), s.sampleMode = .sequential →
    ∃ (t0 t1 t2 : Nat) (tA : Nat → Nat), t1 ≤ t2 ∧ (∀ n, n < 24 → t0 ≤ tA n ∧ tA n ≤ t1) ∧
      (sampleWord s w).getLsbD 26 = (if s.ctrlActiveLow then !(w.busAt s.bus t0).cs else (w.busAt s.bus t0).cs) ∧
      (∀ n, n < 24 → (sampleWord s w).getLsbD n = (w.busAt s.bus (tA n)).addr.getLsbD n) ∧
      (sampleWord s w).getLsbD 24 = (if s.ctrlActiveLow then !(w.busAt s.bus t2).rd else (w.busAt s.bus t2).rd)

/-- The converse of R84: the model admits every such reading (each address bit "a free draw", and any WR bit; log 10, 11). -/
def Obligations.EverySequentialReadingIsAdmitted : Prop :=
  ∀ (s : State) (later : List Lines) (t0 t2 : Nat) (tA : Nat → Nat) (wr : Bool), s.sampleMode = .sequential →
    (∀ n, n < 24 → t0 ≤ tA n ∧ tA n ≤ t2) → t0 ≤ t2 →
    ∃ w : Window, w.later = later ∧
      (sampleWord s w).getLsbD 26 = (if s.ctrlActiveLow then !(w.busAt s.bus t0).cs else (w.busAt s.bus t0).cs) ∧
      (∀ n, n < 24 → (sampleWord s w).getLsbD n = (w.busAt s.bus (tA n)).addr.getLsbD n) ∧
      (sampleWord s w).getLsbD 24 = (if s.ctrlActiveLow then !(w.busAt s.bus t2).rd else (w.busAt s.bus t2).rd) ∧
      (sampleWord s w).getLsbD 25 = wr

/-- On a bus that holds still the two sampling modes read the same address, RD and CS (the hazard of R198 needs a change). -/
def Obligations.StillBusSamplesAlike : Prop :=
  ∀ (s : State) (w : Window) (n : Nat), w.later = [] → n ≠ 25 →
    (sampleWord { s with sampleMode := .sequential } w).getLsbD n
      = (sampleWord { s with sampleMode := .atomic } w).getLsbD n

/-! ## AddressDecoder (spec/41_address_decoder.md) -/

/-- R92: the fold takes banks strictly above 0x80, never goes below zero, clears bit 23 where it takes, and leaves the offset. -/
def Obligations.FoldTakesBanksAbove80 : Prop :=
  ∀ a : Addr,
    ((fold a).1.toNat, (fold a).2.toNat) = Reading.fold a.toNat ∧
    (fold a).2.toNat = Reading.bank (fold a).1.toNat ∧ (fold a).2.toNat ≤ 0x80 ∧ (fold a).1.toNat ≤ 0x80FFFF ∧
    Reading.offset (fold a).1.toNat = Reading.offset a.toNat ∧
    (Reading.bank a.toNat > 0x80 → 0x810000 ≤ a.toNat ∧ (fold a).1 = a &&& 0x7FFFFF) ∧
    (Reading.bank a.toNat = 0x80 → fold a = (a, 0x80))

/-- Each of the nine fold classes, on every address of its banks, completes with the pair (A', b) of R92 in the model's own
result port (log 13). -/
def Obligations.FoldClassesReturnTheFoldedPair : Prop :=
  ∀ (a : Addr) (s : State) (i : Instr),
    i ∈ [.nofold80 a, .fold81 a, .fold8283 a, .fold8487 a, .fold888F a, .fold909F a, .foldA0BF a, .foldC0FF a,
      .nofoldLow a] → i.wellFormed = true →
    ∃ (a' : Addr) (b : BitVec 8), exec i s = .next { s with result := .folded a' b } ∧
      (a'.toNat, b.toNat) = Reading.fold a.toNat ∧ b.toNat = Reading.bank a'.toNat ∧ b.toNat ≤ 0x80 ∧
      a'.toNat ≤ 0x80FFFF ∧ Reading.offset a'.toNat = Reading.offset a.toNat

/-- R66: Cart is the 20-bit value A[20] : A[16] : A[14:0] at bits 19, 15 and 14..0, and the sum never carries. -/
def Obligations.CartIsTheBitAssembly : Prop :=
  ∀ x : Addr,
    (cart x).toNat = Reading.cart x.toNat ∧
    ((x.toNat &&& 0x110000) >>> 1) + (x.toNat &&& 0x7FFF) = ((x.toNat &&& 0x110000) >>> 1) ||| (x.toNat &&& 0x7FFF) ∧
    (∀ n, (cart x).getLsbD n =
      if n = 19 then x.getLsbD 20 else if n = 15 then x.getLsbD 16 else decide (n < 15) && x.getLsbD n)

/-- R93: Cart on natural numbers, its range, and the bits it ignores. -/
def Obligations.CartIgnoresTheOtherBits : Prop :=
  (∀ x : Addr, (cart x).toNat = Reading.cart x.toNat ∧ (cart x).toNat ≤ 0x8FFFF ∧
    (cart x).toNat = Reading.bit (x.getLsbD 20) * 0x80000 + Reading.bit (x.getLsbD 16) * 0x8000 + x.toNat % 0x8000 ∧
    (x.toNat &&& 0x110000) >>> 1 ∈ [0x00000, 0x08000, 0x80000, 0x88000]) ∧
  (∀ x y : Addr, x.getLsbD 20 = y.getLsbD 20 → x.getLsbD 16 = y.getLsbD 16 →
    x.extractLsb' 0 15 = y.extractLsb' 0 15 → cart x = cart y) ∧
  (cart 0x008000 = 0x00000 ∧ cart 0x7FFFFF = 0x8FFFF ∧ cart 0x0F1234 = 0x09234 ∧ cart 0x101234 = 0x81234)

/-- R95, R100: the LoROM rows that map by Cart complete with `Rom(Cart(A'))`. -/
def Obligations.LoRomUpperRowsMapByCart : Prop :=
  ∀ (a' : Addr) (s : State) (i : Instr), i ∈ [.loRom003FHi a', .loRom707FHi a', .loRom80Hi a'] →
    i.wellFormed = true →
    ∃ k : Addr, exec i s = .next { s with loc := .rom k } ∧ k.toNat = Reading.cart a'.toNat ∧ k.toNat ≤ 0x8FFFF

/-- R96, R97, R98: the low-bank mirror row and the rows of banks 0x40 to 0x6F complete with the offset their policy gives. -/
def Obligations.LoRomLowerRowsFollowTheMirrorPolicy : Prop :=
  ∀ (a' : Addr) (s : State),
    ((Instr.loMirror003FLo a').wellFormed = true →
      ∃ k : Addr, exec (.loMirror003FLo a') s = .next { s with loc := .rom k } ∧
        k.toNat = match s.mirrorPolicy with
          | .incMirrorOnly => Reading.cart (a'.toNat + 0x010000)
          | .noEffect => Reading.cart a'.toNat
          | .incWholeBranch => Reading.cart (a'.toNat + 0x010000)) ∧
    (∀ i ∈ [Instr.loRom405F a', Instr.loRom606F a'], i.wellFormed = true →
      ∃ k : Addr, exec i s = .next { s with loc := .rom k } ∧
        k.toNat = match s.mirrorPolicy with
          | .incMirrorOnly => Reading.cart a'.toNat
          | .noEffect => Reading.cart a'.toNat
          | .incWholeBranch => Reading.cart (a'.toNat + 0x010000))

/-- R108: the SRAM rows complete with the offset of the session's policy; ZERO is 0 on every input, and then an SRAM read
answers SRAM[0]. -/
def Obligations.SramRowsFollowTheOffsetPolicy : Prop :=
  ∀ (a' : Addr) (s : State),
    exec (.loSram707F a') s = .next { s with loc := .sram (sramOffset s.sramPolicy .lo a') } ∧
    exec (.loSram80 a') s = .next { s with loc := .sram (sramOffset s.sramPolicy .lo a') } ∧
    exec (.hiSram203F a') s = .next { s with loc := .sram (sramOffset s.sramPolicy .hi a') } ∧
    (∀ m, sramOffset .zero m a' = 0) ∧
    s.get (.sram 0) = some (Cells.lookup s.sram 0) ∧
    (s.sramPolicy = .zero → ∀ i ∈ [Instr.loSram707F a', Instr.loSram80 a', Instr.hiSram203F a'],
      exec i s = .next { s with loc := .sram 0 })

/-- Every total function (mode, A') to u24 is the value of a policy the model can hold: R108's parameter is not narrowed (log 4);
all three SRAM rows answer with it. -/
def Obligations.EveryOffsetPolicyIsHeld : Prop :=
  ∀ f : Layout → Addr → Addr, ∃ p : OffsetFormula, ∀ (s : State) (a' : Addr), s.sramPolicy = p →
    exec (.loSram707F a') s = .next { s with loc := .sram (f .lo a') } ∧
    exec (.loSram80 a') s = .next { s with loc := .sram (f .lo a') } ∧
    exec (.hiSram203F a') s = .next { s with loc := .sram (f .hi a') }

/-- R102, R104, R105: the HiROM ROM rows complete with the folded address, or with it less 0x400000. -/
def Obligations.HiRomRowsMapTheFoldedAddress : Prop :=
  ∀ (a' : Addr) (s : State) (i : Instr), i.wellFormed = true →
    (i ∈ [.hiRom001F a', .hiRom203FHi a'] → exec i s = .next { s with loc := .rom a' }) ∧
    (i ∈ [.hiRom407F a', .hiRom80 a'] →
      ∃ k : Addr, exec i s = .next { s with loc := .rom k } ∧ 0x400000 ≤ a'.toNat ∧ k.toNat = a'.toNat - 0x400000 ∧
        k.toNat ≤ 0x40FFFF)

/-- R106, R107: the extended-mode rows complete with Unmapped, and every address of those modes decodes to Unmapped. -/
def Obligations.ExtendedModesDecodeToUnmapped : Prop :=
  ∀ (a a' : Addr) (s : State) (mp : MirrorPolicy) (sp : OffsetFormula),
    exec (.exLoUnmapped a') s = .next { s with loc := .unmapped } ∧
    exec (.exHiUnmapped a') s = .next { s with loc := .unmapped } ∧
    decodeAddress .exLoROM mp sp a = .unmapped ∧ decodeAddress .exHiROM mp sp a = .unmapped

/-- R91, R94, R101: for every mode, policy and address, the decoder the loop runs gives what the algorithms give on
unsigned natural numbers. -/
def Obligations.DecodeIsTheAlgorithmOnNaturals : Prop :=
  ∀ (m : Mode) (mp : MirrorPolicy) (sp : OffsetFormula) (a : Addr),
    Reading.place (decodeAddress m mp sp a) = Reading.decode m mp (Reading.policy sp) a.toNat

/-- The operation map and the loop agree: for every address, the fold class, then the region of its folded address in
the session's MODE, then the mux select of the location, run row by row, give the location and the byte the loop's own
iteration uses (running a row on its own, and the result port that holds its pair or byte, are the model's, log 13). -/
def Obligations.OperationMapRunsTheDecode : Prop :=
  ∀ (s : State) (a : Addr),
    ∃ (i j k : Instr) (a' : Addr) (b : BitVec 8) (s1 s2 s3 : State),
      decode .rawAddress a.toNat = .ok i ∧ exec i s = .next s1 ∧ s1.result = .folded a' b ∧
      decode .decodeWord (regionWord s1.mode a').toNat = .ok j ∧ exec j s1 = .next s2 ∧
      s2.loc = s.decoded a ∧
      decode .location s2.loc.word.toNat = .ok k ∧ exec k s2 = .next s3 ∧
      s3.result = .byte (s.get (s.decoded a))

/-- R109: the ranges of the decoder's ROM offsets, under every policy; an offset can exceed ROM_SIZE. -/
def Obligations.RomOffsetsStayInTheModesRange : Prop :=
  (∀ (mp : MirrorPolicy) (sp : OffsetFormula) (a k : Addr),
    (decodeAddress .loROM mp sp a = .rom k → k.toNat ≤ 0x8FFFF) ∧
    (decodeAddress .hiROM mp sp a = .rom k → k.toNat ≤ 0x40FFFF)) ∧
  ∃ (s : State) (a k : Addr), s.decoded a = .rom k ∧ s.romSize ≤ k.toNat

/-- R110: Unmapped comes exactly from ExLoROM and ExHiROM; in LoROM and HiROM an address is unanswered exactly where the
bounds check fails. -/
def Obligations.UnmappedExactlyInExtendedModes : Prop :=
  (∀ (m : Mode) (mp : MirrorPolicy) (sp : OffsetFormula) (a : Addr),
    decodeAddress m mp sp a = .unmapped ↔ (m = .exLoROM ∨ m = .exHiROM)) ∧
  ∀ (s : State) (a : Addr), (s.mode = .loROM ∨ s.mode = .hiROM) →
    (s.get (s.decoded a) = none ↔
      ((∃ k, s.decoded a = .rom k ∧ s.romSize ≤ k.toNat) ∨
       (∃ k, s.decoded a = .sram k ∧ 0x400 * 2 ^ s.sramSizeClass.toNat ≤ k.toNat)))

/-- R111: the fold law for every mode and policy, and its failure at bank 0x80. -/
def Obligations.FoldLaw : Prop :=
  (∀ (m : Mode) (mp : MirrorPolicy) (sp : OffsetFormula) (a : Addr), Reading.bank a.toNat > 0x80 →
    decodeAddress m mp sp a = decodeAddress m mp sp (a - 0x800000)) ∧
  (∀ (mp : MirrorPolicy) (sp : OffsetFormula),
    decodeAddress .hiROM mp sp 0x800000 = .rom 0x400000 ∧ decodeAddress .hiROM mp sp 0x000000 = .rom 0x000000)

/-- R112: the low-bank mirror law under INC_MIRROR_ONLY, and what the other two policies give instead. -/
def Obligations.LowBankMirrorLaw : Prop :=
  ∀ (sp : OffsetFormula) (o : Addr), o.toNat ≤ 0x7FFF →
    (decodeAddress .loROM .incMirrorOnly sp (0x3F0000 + o) = .rom o ∧
     decodeAddress .loROM .incMirrorOnly sp (0x400000 + o) = .rom o) ∧
    (decodeAddress .loROM .noEffect sp (0x3F0000 + o) = .rom (0x88000 + o) ∧
     decodeAddress .loROM .noEffect sp (0x400000 + o) = .rom o) ∧
    (decodeAddress .loROM .incWholeBranch sp (0x3F0000 + o) = .rom o ∧
     decodeAddress .loROM .incWholeBranch sp (0x400000 + o) = .rom (0x8000 + o))

/-- R114: for a fixed session configuration the decode depends on A and MODE alone. So the LOC that an operation writes depends
on the operation, MODE and the two policies alone, never on an image, a size, the old LOC or another latch. Only IDLE, the
fold classes and the mux selects, which leave LOC, need the two states to agree on it. -/
def Obligations.LocationDependsOnModeAndPoliciesAlone : Prop :=
  ∀ s t : State, s.mode = t.mode → s.mirrorPolicy = t.mirrorPolicy → s.sramPolicy = t.sramPolicy →
    (∀ a : Addr, s.decoded a = t.decoded a) ∧
    ∀ (i : Instr) (s' t' : State), exec i s = .next s' → exec i t = .next t' →
      ((i.format = .rawAddress ∨ i.format = .location ∨ ∃ rd wr a, i = .idle rd wr a) → s.loc = t.loc) →
      s'.loc = t'.loc

/-- The three aliasing facts of R115, on folded addresses. LoROM: two addresses of the regions that Cart maps unincremented
whose folded forms agree on bits 20, 16 and 14..0 give one `Rom(k)`; INC_WHOLE_BRANCH takes banks 0x40 to 0x6F out of those
regions, where the fact is false. HiROM: folded banks 0x40 + j and j, j below 0x20, give one `Rom(k)` at one offset. Under
ZERO the SRAM-region addresses, and no others, give `Sram(0)`. -/
def Obligations.AliasedAddressesShareALocation : Prop :=
  (∀ (mp : MirrorPolicy) (sp : OffsetFormula) (a c : Addr),
    let cartMapped (x : Addr) : Prop :=
      ((Reading.fold x.toNat).2 < 0x40 ∧ 0x8000 ≤ Reading.offset (Reading.fold x.toNat).1) ∨
      (0x40 ≤ (Reading.fold x.toNat).2 ∧ (Reading.fold x.toNat).2 < 0x70 ∧ mp ≠ .incWholeBranch) ∨
      (0x70 ≤ (Reading.fold x.toNat).2 ∧ 0x8000 ≤ Reading.offset (Reading.fold x.toNat).1)
    cartMapped a → cartMapped c →
    (Reading.fold a.toNat).1.testBit 20 = (Reading.fold c.toNat).1.testBit 20 →
    (Reading.fold a.toNat).1.testBit 16 = (Reading.fold c.toNat).1.testBit 16 →
    (Reading.fold a.toNat).1 % 0x8000 = (Reading.fold c.toNat).1 % 0x8000 →
    ∃ k, decodeAddress .loROM mp sp a = .rom k ∧ decodeAddress .loROM mp sp c = .rom k) ∧
  (∀ sp : OffsetFormula,
    decodeAddress .loROM .incWholeBranch sp 0x410000 = .rom 0x00000 ∧
    decodeAddress .loROM .incWholeBranch sp 0x4F0000 = .rom 0x80000) ∧
  (∀ (mp : MirrorPolicy) (sp : OffsetFormula) (j : Nat) (a c : Addr), j < 0x20 →
    (Reading.fold a.toNat).2 = 0x40 + j → (Reading.fold c.toNat).2 = j →
    Reading.offset (Reading.fold a.toNat).1 = Reading.offset (Reading.fold c.toNat).1 →
    ∃ k, decodeAddress .hiROM mp sp a = .rom k ∧ decodeAddress .hiROM mp sp c = .rom k) ∧
  (∀ (mp : MirrorPolicy) (a : Addr),
    (decodeAddress .loROM mp .zero a = .sram 0 ↔
      0x70 ≤ (Reading.fold a.toNat).2 ∧ Reading.offset (Reading.fold a.toNat).1 < 0x8000) ∧
    (decodeAddress .hiROM mp .zero a = .sram 0 ↔
      0x20 ≤ (Reading.fold a.toNat).2 ∧ (Reading.fold a.toNat).2 < 0x40 ∧
        Reading.offset (Reading.fold a.toNat).1 < 0x8000) ∧
    ∀ m k, decodeAddress m mp .zero a = .sram k → k = 0)

/-! ## ImageStore (spec/42_image_store.md) -/

/-- The mux rows complete with the byte of R131, R132 and R133 in the model's own result port (log 13). -/
def Obligations.MuxRowsAnswerBoundsCheckedBytes : Prop :=
  ∀ (k : Addr) (s : State),
    (∃ v, exec (.getRom k) s = .next { s with result := .byte v } ∧
      v = if k.toNat < s.romSize then some (Cells.lookup s.rom k.toNat) else none) ∧
    (∃ v, exec (.getSram k) s = .next { s with result := .byte v } ∧
      v = if k.toNat < 0x400 * 2 ^ s.sramSizeClass.toNat then some (Cells.lookup s.sram k.toNat) else none) ∧
    exec (.getUnmapped k) s = .next { s with result := .byte none }

/-- R130: Get answers the byte at an offset below the image's size and nothing else; nothing comes from exactly three causes. -/
def Obligations.GetIsBoundsChecked : Prop :=
  ∀ (s : State) (loc : Location),
    s.get loc = (match loc with
      | .rom k => if k.toNat < s.romSize then some (Cells.lookup s.rom k.toNat) else none
      | .sram k => if k.toNat < 0x400 * 2 ^ s.sramSizeClass.toNat then some (Cells.lookup s.sram k.toNat) else none
      | .unmapped => none) ∧
    (s.get loc = none ↔
      (loc = .unmapped ∨ (∃ k, loc = .rom k ∧ s.romSize ≤ k.toNat) ∨
        (∃ k, loc = .sram k ∧ 0x400 * 2 ^ s.sramSizeClass.toNat ≤ k.toNat)))

/-! ## BusMonitorLoop (spec/43_bus_monitor_loop.md) -/

/-- The IDLE iteration completes, latches SNAP, clears ACTIVE and does nothing else (R141). That SNAP is written whole, its
address and RD bits among them, in a SEQUENTIAL session too, where the loop reads CS alone, is the model's choice (log 12). -/
def Obligations.IdleIterationDoesNothing : Prop :=
  ∀ (rd wr : Bool) (a : Addr) (s : State), s.phase = .sample →
    ∃ w : SnapshotWord, w.toNat = Reading.snapshot false wr rd a ∧
      exec (.idle rd wr a) s = .next { s with snap := w, active := false, outcome := some .idle }

/-- R142, R144: with RD deasserted an Active iteration completes with the decode alone, strobed by WR or not. -/
def Obligations.UnreadIterationsOnlyDecode : Prop :=
  ∀ (a : Addr) (s : State), s.phase = .sample →
    (∃ w : SnapshotWord, w.toNat = Reading.snapshot true false false a ∧
      exec (.activeNone a) s =
        .next { s with snap := w, active := true, loc := s.decoded a, outcome := some (.noRead a) }) ∧
    (∃ w : SnapshotWord, w.toNat = Reading.snapshot true true false a ∧
      exec (.activeWrite a) s =
        .next { s with snap := w, active := true, loc := s.decoded a, outcome := some (.writeIgnored a) })

/-- R143, R145: a read iteration completes; a byte found becomes pending, none found sends nothing. -/
def Obligations.ReadIterationsIssueTheFoundByte : Prop :=
  ∀ (wr : Bool) (a : Addr) (s : State), s.phase = .sample →
    ∃ w : SnapshotWord, w.toNat = Reading.snapshot true wr true a ∧
      exec (if wr then .activeReadWrite a else .activeRead a) s = .next
        (match s.get (s.decoded a) with
         | some d =>
           { s with
             snap := w, active := true, loc := s.decoded a, pendingByte := d, phase := .sendPending,
             outcome := some (.sendIssued a (s.decoded a) d) }
         | none =>
           { s with
             snap := w, active := true, loc := s.decoded a,
             outcome := some (if s.decoded a = .unmapped then
               (if s.mode = .exLoROM ∨ s.mode = .exHiROM then .unsupportedMode a s.mode else .unmapped a)
               else .outOfRange a (s.decoded a)) })

/-- Every sample taken in PHASE = SAMPLE completes, and its one outcome label is the first that the order of tests allows. -/
def Obligations.OutcomeFollowsTheOrderOfTests : Prop :=
  ∀ (w : SnapshotWord) (i : Instr) (s : State), s.phase = .sample → decode .snapshot w.toNat = .ok i →
    ∃ (t : State) (l : Label), exec i s = .next t ∧ t.outcome = some l ∧
      l = (if w.getLsbD 26 = false then .idle
        else if w.getLsbD 24 = false then
          if w.getLsbD 25 = false then .noRead (w.extractLsb' 0 24) else .writeIgnored (w.extractLsb' 0 24)
        else if s.mode = .exLoROM ∨ s.mode = .exHiROM then .unsupportedMode (w.extractLsb' 0 24) s.mode
        else if t.loc = .unmapped then .unmapped (w.extractLsb' 0 24)
        else if s.get t.loc = none then .outOfRange (w.extractLsb' 0 24) t.loc
        else .sendIssued (w.extractLsb' 0 24) t.loc t.pendingByte) ∧
      (l.code = 3 ↔ t.phase = .sendPending) ∧ l.code ≠ 4

/-- The loop has no iteration outside PHASE = SAMPLE; each stops under its own name (log 15). -/
def Obligations.LoopIteratesOnlyInSample : Prop :=
  ∀ (i : Instr) (s : State), i.format = .snapshot →
    (s.phase = .sample → ∃ t, exec i s = .next t) ∧
    (s.phase = .sendPending → exec i s = .fault .sendBlocked) ∧
    (s.phase = .failed → exec i s = .fault .sessionFailed) ∧
    (s.phase = .stopped → exec i s = .fault .sessionStopped)

/-- R146: an accepted send appends the pending byte, exactly one, and the loop is ready again. -/
def Obligations.AcceptAppendsThePendingByte : Prop :=
  ∀ (s : State) (rest : List Event), s.schedule = .accept :: rest → s.phase = .sendPending →
    step s = .next { s with schedule := rest, sent := s.sent ++ [s.pendingByte], phase := .sample,
                            outcome := some (.sent s.pendingByte) }

/-- R147, R175: a failed send sets FAILED and leaves every other element, SENT gaining the byte or not; no step leaves FAILED. -/
def Obligations.FailedSendEndsTheSession : Prop :=
  ∀ (s : State) (rest : List Event), s.phase = .sendPending →
    (s.schedule = .fail false :: rest →
      step s = .next { s with schedule := rest, phase := .failed, outcome := some (.transportFail s.pendingByte) }) ∧
    (s.schedule = .fail true :: rest →
      step s = .next { s with schedule := rest, phase := .failed, sent := s.sent ++ [s.pendingByte],
                              outcome := some (.transportFail s.pendingByte) }) ∧
    (∀ delivered t u, s.schedule = .fail delivered :: rest → step s = .next t → step t = .next u →
      u.phase = .failed ∧ u.sent = t.sent)

/-- R149: the host may stop in SAMPLE and SEND_PENDING; a pending byte is delivered or not, and nothing else is; no step
leaves STOPPED, and the loop never ends on its own. -/
def Obligations.HostStopEndsTheSession : Prop :=
  ∀ (s : State) (rest : List Event),
    (∀ delivered, s.schedule = .stop delivered :: rest →
      (s.phase = .sample → step s = .next { s with schedule := rest, phase := .stopped, outcome := some .stop }) ∧
      (s.phase = .sendPending →
        step s = .next { s with schedule := rest, phase := .stopped, outcome := some .stop,
                                sent := if delivered then s.sent ++ [s.pendingByte] else s.sent }) ∧
      (∀ t u, step s = .next t → step t = .next u → u.phase = .stopped ∧ u.sent = t.sent)) ∧
    (∀ t, (s.schedule = [] ∨ ∃ w, s.schedule = .loop w :: rest) → step s = .next t →
      t.phase = .sample ∨ t.phase = .sendPending)

/-- In FAILED and STOPPED only the console steps, and it changes nothing of the block. -/
def Obligations.OnlyTheConsoleStepsAfterTheEnd : Prop :=
  ∀ s : State, (s.phase = .failed ∨ s.phase = .stopped) →
    (∀ t, step s = .next t → ∃ l rest, s.schedule = .console l :: rest ∧ t = { s with bus := l, schedule := rest }) ∧
    (∀ l rest, s.schedule = .console l :: rest → step s = .next { s with bus := l, schedule := rest })

/-- R148: while a send is pending only the transport, the host or the console steps, and the console changes nothing of the block. -/
def Obligations.PendingSendBlocksTheLoop : Prop :=
  ∀ s t : State, s.phase = .sendPending → step s = .next t →
    (∃ l rest, s.schedule = .console l :: rest ∧ t = { s with bus := l, schedule := rest }) ∨
    (∃ rest, s.schedule = .accept :: rest ∧ t.phase = .sample) ∨
    (∃ b rest, s.schedule = .fail b :: rest ∧ t.phase = .failed) ∨
    (∃ b rest, s.schedule = .stop b :: rest ∧ t.phase = .stopped)

/-- When the next word is some operation's, a step is that operation on the state with the move taken off the schedule
and, for an iteration, the bus as the iteration leaves it (R140, R150). The schedule, the bus kept at the iteration's last state and the
loop's poll of a still bus when no move is left are the model's choice (log 8, 11), and so are the unit calls (log 13). -/
def Obligations.StepRunsTheDecodedOperation : Prop :=
  ∀ (s : State) (i : Instr) (rest : List Event),
    (∀ w, s.schedule = .loop w :: rest → decode .snapshot (sampleWord s w).toNat = .ok i →
      step s = exec i { s with schedule := rest, bus := w.lastBus s.bus }) ∧
    (s.schedule = [] → decode .snapshot (sampleWord s s.pollWindow).toNat = .ok i → step s = exec i s) ∧
    (s.phase = .sample →
      (∀ a, s.schedule = .foldCall a :: rest → decode .rawAddress a.toNat = .ok i →
        step s = exec i { s with schedule := rest }) ∧
      (∀ a', s.schedule = .regionCall a' :: rest → decode .decodeWord (regionWord s.mode a').toNat = .ok i →
        step s = exec i { s with schedule := rest }) ∧
      (∀ w, s.schedule = .muxCall w :: rest → decode .location w.toNat = .ok i →
        step s = exec i { s with schedule := rest }))

/-- A row's word placed by `withFetchWord` is run by the very next step, as the operation `decodeTableWord` reads from it
(the placing is the model's own, log 14 and 22). -/
def Obligations.PlacedWordRunsNext : Prop :=
  ∀ (s : State) (nbits w : Nat) (i : Instr), decodeTableWord nbits w = some i →
    ∃ s1 : State, s1.phase = .sample ∧ s1.schedule = s.schedule ∧ SameBytes s s1 ∧ s1.sent = s.sent ∧
      step (s.withFetchWord nbits w) = exec i s1 ∧ ∃ t, step (s.withFetchWord nbits w) = .next t

/-- R151: two iterations on the same operation in the same session compute the same LOC and find the same byte. -/
def Obligations.IterationsAreIdempotent : Prop :=
  ∀ (i : Instr) (s t s' t' : State), SameSession s t → i.format = .snapshot → exec i s = .next s' → exec i t = .next t' →
    (s.loc = t.loc ∨ (∀ rd wr a, i ≠ .idle rd wr a) → s'.loc = t'.loc) ∧ s'.phase = t'.phase ∧ s'.outcome = t'.outcome ∧ s'.snap = t'.snap ∧
    s'.active = t'.active ∧ (s'.phase = .sendPending → s'.pendingByte = t'.pendingByte)

/-- A read that stays on the bus across n accepted read-path iterations makes n sends of the same byte. -/
def Obligations.HeldReadRepeatsTheSend : Prop :=
  ∀ (n : Nat) (s : State) (wr : Bool) (a : Addr) (d : Byte), s.phase = .sample →
    sampleWord s (Window.still wr) = snapshotWord true wr true a → s.get (s.decoded a) = some d →
    s.schedule = (List.replicate n [Event.loop (Window.still wr), Event.accept]).flatten →
    ∃ t : State, Host.Core.run Sys2Proof.core (2 * n) s = .next t ∧ t.sent = s.sent ++ List.replicate n d ∧
      t.phase = .sample

/-- The source's end-to-end property (95_test_vectors.md L1.6), for every such session: a read of 0x008000 in LoROM with a
0x80000-byte image sends exactly ROM[0], and with RD deasserted nothing is sent. -/
def Obligations.ReadOf008000SendsTheFirstRomByte : Prop :=
  ∀ (s : State) (l : Lines) (wr : Bool) (rest : List Event), s.mode = .loROM → s.romSize = 0x80000 → s.sampleMode = .atomic →
    s.phase = .sample → l.addr = 0x008000 → (l.cs != s.ctrlActiveLow) = true →
    ((l.rd != s.ctrlActiveLow) = true → s.schedule = .console l :: .loop (Window.still wr) :: .accept :: rest →
      ∃ t : State, Host.Core.run Sys2Proof.core 3 s = .next t ∧ t.sent = s.sent ++ [Cells.lookup s.rom 0] ∧
        t.phase = .sample ∧ t.schedule = rest) ∧
    ((l.rd != s.ctrlActiveLow) = false → s.schedule = .console l :: .loop (Window.still wr) :: rest →
      ∃ t : State, Host.Core.run Sys2Proof.core 2 s = .next t ∧ t.sent = s.sent ∧ t.phase = .sample ∧ t.schedule = rest)

/-! ## Whole-machine rules -/

/-- R45: no step writes an image or the configuration, so every address is answered as at session start. -/
def Obligations.StepKeepsTheSession : Prop :=
  ∀ s t : State, step s = .next t →
    SameSession s t ∧ SameBytes s t ∧ ∀ a : Addr, t.get (t.decoded a) = s.get (s.decoded a)

/-- SENT changes only by appending the one byte that was pending, and only by a move of the transport or the host. -/
def Obligations.SentGrowsByThePendingByteOnly : Prop :=
  ∀ s t : State, step s = .next t → t.sent = s.sent ∨
    (t.sent = s.sent ++ [s.pendingByte] ∧ s.phase = .sendPending ∧
      ∃ rest, s.schedule = .accept :: rest ∨ s.schedule = .fail true :: rest ∨ s.schedule = .stop true :: rest)

/-- Every step keeps the invariant of a session (Safety.lean): canonical images inside their sizes, a pending byte that is the byte at LOC, LOC in its mode's range, ACTIVE equal to the sampled CS. -/
def Obligations.StepKeepsSafe : Prop :=
  ∀ s t : State, Safe s → step s = .next t → Safe t

/-- A byte that a step sends from a safe state is the byte of an image at LOC, and in an extended mode no step sends. -/
def Obligations.SafeStepsSendImageBytesOnly : Prop :=
  ∀ s t : State, Safe s → step s = .next t → t.sent ≠ s.sent →
    (s.mode = .loROM ∨ s.mode = .hiROM) ∧ ∃ d, t.sent = s.sent ++ [d] ∧
      ((∃ k, s.loc = .rom k ∧ k.toNat < s.romSize ∧ d = Cells.lookup s.rom k.toNat) ∨
       (∃ k, s.loc = .sram k ∧ k.toNat < s.sramSize ∧ d = Cells.lookup s.sram k.toNat))

/-- Reset and every launch give a safe state that is ready to sample and has sent nothing (what the reset state's arguments hold
is log 1 to 7, the canonical images log 19). -/
def Obligations.EverySessionStartsSafe : Prop :=
  (Safe State.reset ∧ State.reset.phase = .sample ∧ State.reset.active = false ∧ State.reset.sent = []) ∧
  ∀ (x : LaunchArgs) (s : State), launch x = .next s → Safe s ∧ s.phase = .sample ∧ s.active = false ∧ s.sent = []

/-! ## Frames -/

/-- The frame of the five bus classes: configuration, images, SENT, the environment and the result port stay; IDLE keeps
LOC; PENDING_BYTE and PHASE change only where a read finds a byte. -/
def Obligations.BusClassFrame : Prop :=
  ∀ (rd wr : Bool) (a : Addr) (i : Instr) (s t : State),
    i ∈ [.idle rd wr a, .activeNone a, .activeRead a, .activeWrite a, .activeReadWrite a] → exec i s = .next t →
    SameSession s t ∧ SameBytes s t ∧ SameEnvironment s t ∧ t.sent = s.sent ∧ t.result = s.result ∧
    (i = .idle rd wr a → t.loc = s.loc) ∧
    (i ∈ [.idle rd wr a, .activeNone a, .activeWrite a] ∨ s.get (s.decoded a) = none →
      t.phase = s.phase ∧ t.pendingByte = s.pendingByte)

/-- The frame of the fold classes and the mux selects: their rules write no state, so nothing but the model's own result port changes. -/
def Obligations.FoldAndMuxFrame : Prop :=
  ∀ (i : Instr) (s t : State), (i.format = .rawAddress ∨ i.format = .location) → exec i s = .next t →
    SameSession s t ∧ SameBytes s t ∧ SameEnvironment s t ∧ SameLoop s { t with result := s.result }

/-- The frame of the decode regions: "State written: LOC. No other state" (R90). -/
def Obligations.RegionFrame : Prop :=
  ∀ (i : Instr) (s t : State), i.format = .decodeWord → exec i s = .next t →
    SameSession s t ∧ SameBytes s t ∧ SameEnvironment s t ∧ SameLoop s { t with loc := s.loc }

/-! ## Session start (spec/70_reset_and_hazards.md) -/

/-- A launch with its ROM file, SRAM_SIZE_CLASS, MODE and CTRL_ACTIVE_LOW starts a session with the configured values (R33), each
policy the supplied one or its default (R6, R33), whose ROM is the header-stripped file and whose SRAM is the save, or all zero
without one (R192). That a default counts as a set policy is read from the spec (log 25), and that a file said to have the header and
shorter than it starts with an empty image is the model's choice (log 24). -/
def Obligations.LaunchStartsTheSession : Prop :=
  ∀ (x : LaunchArgs) (file : List Byte) (cls : Byte) (m : Mode) (low : Bool),
    x.romFile = some file → x.sramSizeClass = some cls → x.mode = some m → x.ctrlActiveLow = some low →
    (∀ save, x.save = some save → save.length = 0x400 * 2 ^ cls.toNat) →
    ∃ s : State, launch x = .next s ∧ s.mode = m ∧
      s.mirrorPolicy = (match x.mirrorPolicy with
        | some mp => mp
        | none => .incMirrorOnly) ∧
      (∀ l a', sramOffset s.sramPolicy l a' = match x.sramPolicy with
        | some sp => sramOffset sp l a'
        | none => 0) ∧
      s.sampleMode = (match x.sampleMode with
        | some sm => sm
        | none => .atomic) ∧
      s.ctrlActiveLow = low ∧ s.sramSizeClass = cls ∧ s.sramSize = 0x400 * 2 ^ cls.toNat ∧ s.phase = .sample ∧ s.active = false ∧
      s.sent = [] ∧ s.romSize = (if x.smcHeader then file.length - 512 else file.length) ∧
      (∀ k : Addr, s.romByte k = file[k.toNat + if x.smcHeader then 512 else 0]?) ∧
      (∀ k : Addr, k.toNat < 0x400 * 2 ^ cls.toNat →
        s.sramByte k = match x.save with
          | some save => save[k.toNat]?
          | none => some 0)

/-- A launch without a configuration element that has no default, or with a save of the wrong length, is refused, and no other
launch is (log 20, 25). -/
def Obligations.LaunchRefusesBrokenPremises : Prop :=
  ∀ x : LaunchArgs,
    (launch x = .refused .incompleteConfiguration ↔
      (x.romFile = none ∨ x.sramSizeClass = none ∨ x.mode = none ∨ x.ctrlActiveLow = none)) ∧
    (∀ file cls m low save, x.romFile = some file → x.sramSizeClass = some cls → x.mode = some m →
      x.ctrlActiveLow = some low → x.save = some save → save.length ≠ 0x400 * 2 ^ cls.toNat →
      launch x = .refused .saveLengthMismatch) ∧
    ∀ e, launch x = .refused e → e = .incompleteConfiguration ∨
      (e = .saveLengthMismatch ∧ ∃ cls save, x.sramSizeClass = some cls ∧ x.save = some save ∧
        save.length ≠ 0x400 * 2 ^ cls.toNat)

/-! ## The bus script (spec/30_encoding.md section 5) -/

/-- A CYCLE of R73 in PHASE = SAMPLE is two steps: the console holds the statement's bus state, and the loop runs one iteration on
the statement's snapshot word, which completes. In a SEQUENTIAL session this is the model's choice (log 26). -/
def Obligations.ScriptCycleRunsItsWord : Prop :=
  ∀ (s : State) (cs rd wr : Bool) (a : Addr) (rest : List Event), s.phase = .sample →
    s.schedule = scriptCycle s.ctrlActiveLow cs rd wr a ++ rest →
    ∃ (l : Lines) (s1 t : State) (i : Instr),
      l.addr = a ∧ (l.cs != s.ctrlActiveLow) = cs ∧ (l.rd != s.ctrlActiveLow) = rd ∧ (l.wr != s.ctrlActiveLow) = wr ∧
      step s = .next s1 ∧ SameSession s s1 ∧ SameLoop s s1 ∧ s1.bus = l ∧
      decode .snapshot (Reading.snapshot cs wr rd a) = .ok i ∧
      step s1 = exec i { s with bus := l, schedule := rest } ∧ step s1 = .next t
end

