-- ==== Sys2Proof/Laws/Decode.lean ====
section
/-! SUPPORT. Which row a word selects: the rows of a format test only some bits of the word (`testedBits`), and every pattern of those bits selects the row the operation map names. -/

namespace Sys2Proof

/-- The rows of one format. -/
def rowsOf : Format → List Row
  | .snapshot => busRows
  | .rawAddress => foldRows
  | .decodeWord => regionRows
  | .location => muxRows

/-- The bits some row of a format tests. -/
def testedBits : Format → BitVec 27
  | .snapshot => 0x7000000
  | .rawAddress => 0x0FF0000
  | .decodeWord => 0x3FF8000
  | .location => 0x3000000

theorem rowsOf_format (f : Format) : ∀ r ∈ rowsOf f, r.format = f := by
  have h : (rowsOf f).all (fun r => r.format == f) = true := by cases f <;> decide
  intro r hr
  simpa using List.all_eq_true.mp h r hr

theorem rowsOf_tests (f : Format) : ∀ r ∈ rowsOf f, testedBits f &&& r.mask = r.mask := by
  have h : (rowsOf f).all (fun r => testedBits f &&& r.mask == r.mask) = true := by cases f <;> decide
  intro r hr
  simpa using List.all_eq_true.mp h r hr

theorem Row.covers_other {r : Row} {f g : Format} (h : r.format = g) (hfg : g ≠ f) (w : BitVec 27) :
    r.covers f w = false := by
  simp [Row.covers, h, hfg]

/-- A format's words are covered by that format's rows only. -/
theorem filter_covers (f : Format) (w : BitVec 27) :
    rows.filter (fun r => r.covers f w) = (rowsOf f).filter (fun r => r.covers f w) := by
  have other (g : Format) (h : g ≠ f) : (rowsOf g).filter (fun r => r.covers f w) = [] := by
    simp only [List.filter_eq_nil_iff]
    intro r hr; simp [Row.covers_other (rowsOf_format g r hr) h]
  have hs := other .snapshot; have hr := other .rawAddress
  have hd := other .decodeWord; have hl := other .location
  simp only [rowsOf] at hs hr hd hl
  simp only [rows, List.filter_append]
  cases f <;> simp only [ne_eq, reduceCtorEq, not_false_eq_true, forall_const] at hs hr hd hl <;>
    simp only [*, rowsOf, List.nil_append, List.append_nil]

/-- The row's test reads the tested bits alone. -/
theorem covers_iff_fits {r : Row} {f : Format} (hr : r ∈ rowsOf f) (w : BitVec 27) :
    r.covers f w = ((w &&& testedBits f) &&& r.mask == r.value) := by
  simp [Row.covers, rowsOf_format f r hr, BitVec.and_assoc, rowsOf_tests f r hr]

/-- The rows that cover a word are the rows of its format that fit its tested bits. -/
theorem filter_covers_tested (f : Format) (w : BitVec 27) :
    rows.filter (fun r => r.covers f w)
      = (rowsOf f).filter (fun r => (w &&& testedBits f) &&& r.mask == r.value) := by
  rw [filter_covers]
  exact List.filter_congr fun r hr => covers_iff_fits hr w

theorem find_eq_head_filter (f : Format) (w : BitVec 27) :
    rows.find? (fun r => r.covers f w) = (rows.filter (fun r => r.covers f w)).head? := by
  rw [List.head?_filter]

/-- The tested bits of a 3-bit field over a bank over the offset's top bit, all lower bits zero. -/
def testedWord (top : BitVec 3) (b : BitVec 8) (u : Bool) : BitVec 27 := top ++ b ++ BitVec.ofBool u ++ 0#15

theorem and_testedBits_region (m : BitVec 2) (a : Addr) :
    ((0#1 ++ m ++ a : BitVec 27) &&& testedBits .decodeWord)
      = testedWord (0#1 ++ m) (a.extractLsb' 16 8) (a.getLsbD 15) := by
  apply BitVec.eq_of_getLsbD_eq
  intro i hi
  have h : (testedBits .decodeWord).getLsbD i = (decide (15 ≤ i) && decide (i < 26)) := by
    revert i; decide
  simp only [testedWord, BitVec.getLsbD_and, h, BitVec.getLsbD_append, BitVec.getLsbD_ofBool, BitVec.getLsbD_extractLsb',
    BitVec.getLsbD_zero]
  by_cases h24 : i < 24
  · by_cases h15 : i < 15
    · simp [h15, h24]
    · by_cases h16 : i = 15
      · subst h16; simp
      · simp [h15, h24, show ¬ i - 15 < 1 by omega, show i - 15 - 1 < 8 by omega, show 15 ≤ i by omega,
          show 16 + (i - 15 - 1) = i by omega, show i < 26 by omega]
  · by_cases h26 : i < 26
    · simp [h24, h26, show ¬ i < 15 by omega, show ¬ i - 15 < 1 by omega, show ¬ i - 15 - 1 < 8 by omega,
        show 15 ≤ i by omega, show i - 15 - 1 - 8 = i - 24 by omega]
    · simp [h26, show ¬ i < 15 by omega, show ¬ i - 15 < 1 by omega, show ¬ i - 15 - 1 < 8 by omega,
        show ¬ i - 15 - 1 - 8 < 2 by omega]

theorem and_testedBits_fold (a : Addr) :
    ((0#3 ++ a : BitVec 27) &&& testedBits .rawAddress) = testedWord 0#3 (a.extractLsb' 16 8) false := by
  apply BitVec.eq_of_getLsbD_eq
  intro i hi
  have h : (testedBits .rawAddress).getLsbD i = (decide (16 ≤ i) && decide (i < 24)) := by
    revert i; decide
  simp only [testedWord, BitVec.getLsbD_and, h, BitVec.getLsbD_append, BitVec.getLsbD_ofBool, BitVec.getLsbD_extractLsb',
    BitVec.getLsbD_zero]
  by_cases h24 : i < 24
  · by_cases h16 : i < 16
    · simp [show ¬ 16 ≤ i by omega]; intros; omega
    · simp [h24, show 16 ≤ i by omega, show ¬ i < 15 by omega, show ¬ i - 15 < 1 by omega, show i - 15 - 1 < 8 by omega,
        show 16 + (i - 15 - 1) = i by omega]
  · simp [h24, show ¬ i < 15 by omega, show ¬ i - 15 < 1 by omega, show ¬ i - 15 - 1 < 8 by omega]

theorem and_testedBits_bus (top : BitVec 3) (a : Addr) :
    ((top ++ a : BitVec 27) &&& testedBits .snapshot) = testedWord top 0 false := by
  apply BitVec.eq_of_getLsbD_eq
  intro i hi
  have h : (testedBits .snapshot).getLsbD i = (decide (24 ≤ i) && decide (i < 27)) := by
    revert i; decide
  simp only [testedWord, BitVec.getLsbD_and, h, BitVec.getLsbD_append, BitVec.getLsbD_ofBool, BitVec.getLsbD_zero]
  by_cases h24 : i < 24
  · simp [h24, show ¬ 24 ≤ i by omega]; intros; omega
  · simp [h24, hi, show 24 ≤ i by omega, show ¬ i < 15 by omega, show ¬ i - 15 < 1 by omega, show ¬ i - 15 - 1 < 8 by omega,
      show i - 15 - 1 - 8 = i - 24 by omega]

theorem and_testedBits_mux (t : BitVec 2) (k : Addr) :
    ((0#1 ++ t ++ k : BitVec 27) &&& testedBits .location) = testedWord (0#1 ++ t) 0 false := by
  apply BitVec.eq_of_getLsbD_eq
  intro i hi
  have h : (testedBits .location).getLsbD i = (decide (24 ≤ i) && decide (i < 26)) := by
    revert i; decide
  simp only [testedWord, BitVec.getLsbD_and, h, BitVec.getLsbD_append, BitVec.getLsbD_ofBool, BitVec.getLsbD_zero]
  by_cases h24 : i < 24
  · simp [h24, show ¬ 24 ≤ i by omega]; intros; omega
  · by_cases h26 : i < 26
    · simp [h24, h26, show 24 ≤ i by omega, show ¬ i < 15 by omega, show ¬ i - 15 < 1 by omega, show ¬ i - 15 - 1 < 8 by omega,
        show i - 15 - 1 - 8 = i - 24 by omega]
    · simp [h26, show ¬ i < 15 by omega, show ¬ i - 15 < 1 by omega, show ¬ i - 15 - 1 < 8 by omega,
        show ¬ i - 15 - 1 - 8 < 2 by omega]

/-- The places of the rows that fit a word, counted from `n`. -/
def placesFrom (w : BitVec 27) : Nat → List Row → List Nat
  | _, [] => []
  | n, r :: rest =>
    if Nat.beq (w.toNat &&& r.mask.toNat) r.value.toNat then n :: placesFrom w (n + 1) rest else placesFrom w (n + 1) rest

/-- The places in `rowsOf f` that fit a tested word. -/
def fitPlaces (f : Format) (w : BitVec 27) : List Nat := placesFrom w 0 (rowsOf f)

theorem filter_eq_places (w : BitVec 27) (done l : List Row) :
    l.filter (fun r => w &&& r.mask == r.value)
      = (placesFrom w done.length l).filterMap (fun n => (done ++ l)[n]?) := by
  induction l generalizing done with
  | nil => rfl
  | cons r rest ih =>
    have ih' := ih (done ++ [r])
    simp only [List.length_append, List.length_singleton, List.append_assoc, List.singleton_append] at ih'
    have hb : (w &&& r.mask == r.value) = Nat.beq (w.toNat &&& r.mask.toNat) r.value.toNat := by
      rw [Bool.eq_iff_iff, beq_iff_eq, Nat.beq_eq, ← BitVec.toNat_inj, BitVec.toNat_and]
    simp only [List.filter_cons, placesFrom, hb]
    split <;> simp [ih']

/-- The rows that cover a word, by the places that fit its tested bits. -/
theorem filter_covers_places (f : Format) (w : BitVec 27) :
    rows.filter (fun r => r.covers f w)
      = (fitPlaces f (w &&& testedBits f)).filterMap (fun n => (rowsOf f)[n]?) := by
  rw [filter_covers_tested]
  exact filter_eq_places (w &&& testedBits f) [] (rowsOf f)

/-- The decoder on a word of its format's width. -/
theorem decode_eq (f : Format) (w : Nat) (hw : w < 2 ^ f.width) :
    decode f w = match (rows.filter (fun r => r.covers f (BitVec.ofNat 27 w))).head? with
      | none => .error .noRow
      | some r => if (r.build (BitVec.ofNat 27 w)).wellFormed then .ok (r.build (BitVec.ofNat 27 w)) else .error .badOperand := by
  rw [← find_eq_head_filter, decode, if_pos hw] <;> rfl

theorem ofNat27_addr (a : Addr) : BitVec.ofNat 27 a.toNat = (0#3 ++ a : BitVec 27) := by
  apply BitVec.eq_of_toNat_eq
  have := a.isLt
  simp only [BitVec.toNat_ofNat, BitVec.toNat_append, Nat.zero_mod, Nat.zero_shiftLeft, Nat.zero_or]
  exact Nat.mod_eq_of_lt (by omega)

theorem ofNat27_select (t : BitVec 2) (k : Addr) :
    BitVec.ofNat 27 (t ++ k : SelectWord).toNat = (0#1 ++ t ++ k : BitVec 27) := by
  apply BitVec.eq_of_toNat_eq
  have := (t ++ k : SelectWord).isLt
  rw [BitVec.toNat_ofNat, Nat.mod_eq_of_lt (by omega)]
  simp only [BitVec.toNat_append, BitVec.toNat_ofNat, Nat.zero_mod, Nat.zero_shiftLeft, Nat.zero_or]

@[simp] theorem operandOf_append (top : BitVec 3) (a : Addr) : operandOf (top ++ a : BitVec 27) = a :=
  BitVec.extractLsb'_append_eq_right

/-- The place in `regionRows` of a mode code, folded bank and offset half (R69). -/
def regionPlace (m : BitVec 2) (b : BitVec 8) (u : Bool) : List Nat :=
  if m = 0b00 then
    if b < 0x40 then [if u then 0 else 1]
    else if b < 0x60 then [2]
    else if b < 0x70 then [3]
    else if b < 0x80 then [if u then 5 else 4]
    else if b = 0x80 then [if u then 7 else 6]
    else []
  else if m = 0b01 then
    if b < 0x20 then [8]
    else if b < 0x40 then [if u then 10 else 9]
    else if b < 0x80 then [11]
    else if b = 0x80 then [12]
    else []
  else [if m = 0b10 then 13 else 14]

theorem fitPlaces_region (m : BitVec 2) (b : BitVec 8) (u : Bool) :
    fitPlaces .decodeWord (testedWord (0#1 ++ m) b u) = regionPlace m b u := by
  revert m b u
  decide +kernel

/-- The place in `foldRows` of a bank (R68). -/
def foldPlace (b : BitVec 8) : Nat :=
  if b = 0x80 then 0
  else if b < 0x80 then 8
  else if b < 0x82 then 1
  else if b < 0x84 then 2
  else if b < 0x88 then 3
  else if b < 0x90 then 4
  else if b < 0xA0 then 5
  else if b < 0xC0 then 6
  else 7

theorem fitPlaces_fold (b : BitVec 8) : fitPlaces .rawAddress (testedWord 0#3 b false) = [foldPlace b] := by
  revert b
  decide +kernel

/-- The place in `busRows` of CS, WR, RD (R67). -/
def busPlace (cs wr rd : Bool) : Nat :=
  if cs then (if rd then (if wr then 4 else 2) else if wr then 3 else 1) else 0

theorem fitPlaces_bus (cs wr rd : Bool) :
    fitPlaces .snapshot (testedWord (BitVec.ofBool cs ++ BitVec.ofBool wr ++ BitVec.ofBool rd) 0 false)
      = [busPlace cs wr rd] := by
  revert cs wr rd
  decide +kernel

/-- The place in `muxRows` of a TAG (R70). -/
def muxPlace (tag : BitVec 2) : List Nat :=
  if tag = 0b00 then [0] else if tag = 0b01 then [1] else if tag = 0b10 then [2] else []

theorem fitPlaces_mux (tag : BitVec 2) : fitPlaces .location (testedWord (0#1 ++ tag) 0 false) = muxPlace tag := by
  revert tag
  decide +kernel

/-- A word whose tested bits fit exactly one place is covered by that row alone, and decodes by it. -/
theorem decode_of_place {f : Format} {w : Nat} {v : BitVec 27} {n : Nat} {r : Row} (hw : w < 2 ^ f.width)
    (hv : BitVec.ofNat 27 w = v) (hp : fitPlaces f (v &&& testedBits f) = [n]) (hr : (rowsOf f)[n]? = some r) :
    (rows.filter (fun r => r.covers f v)).length = 1 ∧
    decode f w = if (r.build v).wellFormed then .ok (r.build v) else .error .badOperand := by
  have hf : rows.filter (fun r => r.covers f v) = [r] := by rw [filter_covers_places, hp]; simp [hr]
  refine ⟨by rw [hf]; rfl, ?_⟩
  rw [decode_eq f w hw, hv, hf]; rfl

/-- A word whose tested bits fit no place is refused. -/
theorem decode_of_no_place {f : Format} {w : Nat} {v : BitVec 27} (hw : w < 2 ^ f.width)
    (hv : BitVec.ofNat 27 w = v) (hp : fitPlaces f (v &&& testedBits f) = []) : decode f w = .error .noRow := by
  have hf : rows.filter (fun r => r.covers f v) = [] := by rw [filter_covers_places, hp]; rfl
  rw [decode_eq f w hw, hv, hf]; rfl

/-- The decode word of a mode and folded address, where its place is known. -/
theorem decode_regionWord_of_place {m : Mode} {a : Addr} {n : Nat} {r : Row} {i : Instr}
    (hn : regionPlace m.code (a.extractLsb' 16 8) (a.getLsbD 15) = [n]) (hr : (rowsOf .decodeWord)[n]? = some r)
    (hi : r.build (0#1 ++ m.code ++ a : BitVec 27) = i) (hw : i.wellFormed = true) :
    decode .decodeWord (regionWord m a).toNat = .ok i := by
  have hp := fitPlaces_region m.code (a.extractLsb' 16 8) (a.getLsbD 15)
  rw [← and_testedBits_region m.code a, hn] at hp
  have k := decode_of_place (regionWord m a).isLt (ofNat27_select m.code a) hp hr
  exact k.2.trans (by rw [hi, if_pos hw])

end Sys2Proof
end

