-- ==== Sys2Proof/Laws/Operands.lean ====
section
/-! SUPPORT. The decoder's arithmetic as unsigned naturals (spec/00_scope.md R8): nothing wraps. -/

namespace Sys2Proof.Machine

theorem bankOf_toNat (a : Addr) : (bankOf a).toNat = a.toNat >>> 16 := by
  have := a.isLt
  simp only [bankOf, BitVec.extractLsb'_toNat, Nat.shiftRight_eq_div_pow]
  omega

theorem bankNat_eq_bankOf (a : Addr) : bankNat a = (bankOf a).toNat := by
  rw [bankOf_toNat, Nat.shiftRight_eq_div_pow]; rfl

theorem offsetOf_toNat (a : Addr) : (offsetOf a).toNat = a.toNat &&& 0xFFFF := by
  have h : a.toNat &&& 0xFFFF = a.toNat % 65536 := Nat.and_two_pow_sub_one_eq_mod a.toNat 16
  rw [h]
  simp [offsetOf, BitVec.extractLsb'_toNat]

theorem upperHalf_eq (a : Addr) : upperHalf a = decide (0x8000 ≤ (offsetOf a).toNat) := by
  have h : a.toNat &&& 0xFFFF = a.toNat % 65536 := Nat.and_two_pow_sub_one_eq_mod a.toNat 16
  rw [offsetOf_toNat, h, upperHalf, BitVec.getLsbD, Nat.testBit_eq_decide_div_mod_eq]
  rw [decide_eq_decide]
  omega

/-- The subtraction of the fold "never goes below zero" (R92). -/
theorem foldedDown_toNat (a : Addr) (h : 0x80 < bankNat a) :
    (foldedDown a).1.toNat = a.toNat - 0x800000 ∧ (foldedDown a).2.toNat = bankNat a - 0x80 := by
  have hb := bankNat_eq_bankOf a
  have ha := a.isLt
  have hlow : (0x800000 : Nat) ≤ a.toNat := by unfold bankNat at h; omega
  constructor
  · rw [show (foldedDown a).1 = a - 0x800000#24 from rfl, BitVec.toNat_sub_of_le]
    · rfl
    · rw [BitVec.le_def]; exact hlow
  · rw [show (foldedDown a).2 = bankOf a - 0x80#8 from rfl, BitVec.toNat_sub_of_le, hb]
    · rfl
    · rw [BitVec.le_def, ← hb]; exact Nat.le_of_lt h

/-- Cart never carries (R66, R93). -/
theorem cart_toNat (x : Addr) : (cart x).toNat = ((x.toNat &&& 0x110000) >>> 1) + (x.toNat &&& 0x7FFF) := by
  have h1 : x.toNat &&& 0x110000 ≤ 0x110000 := Nat.and_le_right
  have h2 : x.toNat &&& 0x7FFF ≤ 0x7FFF := Nat.and_le_right
  have hc : (cart x).toNat = (((x.toNat &&& 0x110000) >>> 1) + (x.toNat &&& 0x7FFF)) % 2 ^ 24 := by
    simp only [cart, BitVec.toNat_add, BitVec.toNat_ushiftRight, BitVec.toNat_and]
    rfl
  rw [hc, Nat.mod_eq_of_lt]
  rw [Nat.shiftRight_eq_div_pow]
  omega

/-- The range of Cart (R93). -/
theorem cart_le (x : Addr) : (cart x).toNat ≤ 0x8FFFF := by
  have h1 : x.toNat &&& 0x110000 ≤ 0x110000 := Nat.and_le_right
  have h2 : x.toNat &&& 0x7FFF ≤ 0x7FFF := Nat.and_le_right
  rw [cart_toNat, Nat.shiftRight_eq_div_pow]
  omega

theorem loMirror_le (p : MirrorPolicy) (a : Addr) : (loMirror p a).toNat ≤ 0x8FFFF := by
  cases p <;> exact cart_le _

theorem loMiddle_le (p : MirrorPolicy) (a : Addr) : (loMiddle p a).toNat ≤ 0x8FFFF := by
  cases p <;> exact cart_le _

/-- The increment of the mirror policies stays within 24 bits (R96). -/
theorem nextBank_toNat (a : Addr) (h : bankNat a < 0xFF) : (nextBank a).toNat = a.toNat + 0x010000 := by
  unfold bankNat at h
  rw [show nextBank a = a + 0x010000#24 from rfl, BitVec.toNat_add_of_lt]
  · rfl
  · simp; omega

theorem hiUpper_toNat (a : Addr) (h : 0x40 ≤ bankNat a) : (hiUpper a).toNat = a.toNat - 0x400000 := by
  unfold bankNat at h
  rw [show hiUpper a = a - 0x400000#24 from rfl, BitVec.toNat_sub_of_le]
  · rfl
  · rw [BitVec.le_def]; simp; omega

/-- A formula that answers `f` on the addresses of a list, layout by layout. -/
def tableFormula (f : Addr → Addr) : List Addr → OffsetFormula
  | [] => .lit 0
  | x :: rest => .ifEq .addr (.lit x) (.lit (f x)) (tableFormula f rest)

theorem tableFormula_eval (f : Addr → Addr) (l : List Addr) (m : Layout) (a : Addr) (h : a ∈ l) :
    evalFormula (tableFormula f l) m a = f a := by
  induction l with
  | nil => exact absurd h List.not_mem_nil
  | cons x rest ih =>
    by_cases hx : a = x
    · subst hx; simp [tableFormula, evalFormula]
    · have : a ∈ rest := by simpa [hx] using h
      simp [tableFormula, evalFormula, hx, ih this]

/-- Every total function of the layout and the folded address is the value of a policy formula (R108; log 4). -/
theorem every_policy_expressible (f : Layout → Addr → Addr) :
    ∃ p : OffsetFormula, ∀ m a, sramOffset p m a = f m a := by
  have hex : ∃ l : List Addr, ∀ a, a ∈ l :=
    ⟨(List.range (2 ^ 24)).map (BitVec.ofNat 24), fun a =>
      List.mem_map.mpr ⟨a.toNat, List.mem_range.mpr a.isLt, by simp⟩⟩
  obtain ⟨all, hall⟩ := hex
  refine ⟨.byLayout (tableFormula (f .lo) all) (tableFormula (f .hi) all), fun m a => ?_⟩
  cases m
  · exact tableFormula_eval (f .lo) all .lo a (hall a)
  · exact tableFormula_eval (f .hi) all .hi a (hall a)

end Sys2Proof.Machine
end

