-- ==== Sys2Proof/Laws/State.lean ====
section
/-! SUPPORT. One lemma per field per update of State. -/

namespace Sys2Proof.Machine

variable (s : State)

@[simp] theorem State.withSample_mode (word : SnapshotWord) : (s.withSample word).mode = s.mode := rfl
@[simp] theorem State.withSample_rom (word : SnapshotWord) : (s.withSample word).rom = s.rom := rfl
@[simp] theorem State.withSample_romSize (word : SnapshotWord) : (s.withSample word).romSize = s.romSize := rfl
@[simp] theorem State.withSample_sramSizeClass (word : SnapshotWord) : (s.withSample word).sramSizeClass = s.sramSizeClass := rfl
@[simp] theorem State.withSample_sram (word : SnapshotWord) : (s.withSample word).sram = s.sram := rfl
@[simp] theorem State.withSample_mirrorPolicy (word : SnapshotWord) : (s.withSample word).mirrorPolicy = s.mirrorPolicy := rfl
@[simp] theorem State.withSample_sramPolicy (word : SnapshotWord) : (s.withSample word).sramPolicy = s.sramPolicy := rfl
@[simp] theorem State.withSample_sampleMode (word : SnapshotWord) : (s.withSample word).sampleMode = s.sampleMode := rfl
@[simp] theorem State.withSample_ctrlActiveLow (word : SnapshotWord) : (s.withSample word).ctrlActiveLow = s.ctrlActiveLow := rfl
@[simp] theorem State.withSample_phase (word : SnapshotWord) : (s.withSample word).phase = s.phase := rfl
@[simp] theorem State.withSample_active (word : SnapshotWord) : (s.withSample word).active = word.getLsbD 26 := rfl
@[simp] theorem State.withSample_snap (word : SnapshotWord) : (s.withSample word).snap = word := rfl
@[simp] theorem State.withSample_loc (word : SnapshotWord) : (s.withSample word).loc = s.loc := rfl
@[simp] theorem State.withSample_pendingByte (word : SnapshotWord) : (s.withSample word).pendingByte = s.pendingByte := rfl
@[simp] theorem State.withSample_sent (word : SnapshotWord) : (s.withSample word).sent = s.sent := rfl
@[simp] theorem State.withSample_outcome (word : SnapshotWord) : (s.withSample word).outcome = s.outcome := rfl
@[simp] theorem State.withSample_result (word : SnapshotWord) : (s.withSample word).result = s.result := rfl
@[simp] theorem State.withSample_bus (word : SnapshotWord) : (s.withSample word).bus = s.bus := rfl
@[simp] theorem State.withSample_schedule (word : SnapshotWord) : (s.withSample word).schedule = s.schedule := rfl

@[simp] theorem State.withLoc_mode (loc : Location) : (s.withLoc loc).mode = s.mode := rfl
@[simp] theorem State.withLoc_rom (loc : Location) : (s.withLoc loc).rom = s.rom := rfl
@[simp] theorem State.withLoc_romSize (loc : Location) : (s.withLoc loc).romSize = s.romSize := rfl
@[simp] theorem State.withLoc_sramSizeClass (loc : Location) : (s.withLoc loc).sramSizeClass = s.sramSizeClass := rfl
@[simp] theorem State.withLoc_sram (loc : Location) : (s.withLoc loc).sram = s.sram := rfl
@[simp] theorem State.withLoc_mirrorPolicy (loc : Location) : (s.withLoc loc).mirrorPolicy = s.mirrorPolicy := rfl
@[simp] theorem State.withLoc_sramPolicy (loc : Location) : (s.withLoc loc).sramPolicy = s.sramPolicy := rfl
@[simp] theorem State.withLoc_sampleMode (loc : Location) : (s.withLoc loc).sampleMode = s.sampleMode := rfl
@[simp] theorem State.withLoc_ctrlActiveLow (loc : Location) : (s.withLoc loc).ctrlActiveLow = s.ctrlActiveLow := rfl
@[simp] theorem State.withLoc_phase (loc : Location) : (s.withLoc loc).phase = s.phase := rfl
@[simp] theorem State.withLoc_active (loc : Location) : (s.withLoc loc).active = s.active := rfl
@[simp] theorem State.withLoc_snap (loc : Location) : (s.withLoc loc).snap = s.snap := rfl
@[simp] theorem State.withLoc_loc (loc : Location) : (s.withLoc loc).loc = loc := rfl
@[simp] theorem State.withLoc_pendingByte (loc : Location) : (s.withLoc loc).pendingByte = s.pendingByte := rfl
@[simp] theorem State.withLoc_sent (loc : Location) : (s.withLoc loc).sent = s.sent := rfl
@[simp] theorem State.withLoc_outcome (loc : Location) : (s.withLoc loc).outcome = s.outcome := rfl
@[simp] theorem State.withLoc_result (loc : Location) : (s.withLoc loc).result = s.result := rfl
@[simp] theorem State.withLoc_bus (loc : Location) : (s.withLoc loc).bus = s.bus := rfl
@[simp] theorem State.withLoc_schedule (loc : Location) : (s.withLoc loc).schedule = s.schedule := rfl

@[simp] theorem State.withOutcome_mode (l : Label) : (s.withOutcome l).mode = s.mode := rfl
@[simp] theorem State.withOutcome_rom (l : Label) : (s.withOutcome l).rom = s.rom := rfl
@[simp] theorem State.withOutcome_romSize (l : Label) : (s.withOutcome l).romSize = s.romSize := rfl
@[simp] theorem State.withOutcome_sramSizeClass (l : Label) : (s.withOutcome l).sramSizeClass = s.sramSizeClass := rfl
@[simp] theorem State.withOutcome_sram (l : Label) : (s.withOutcome l).sram = s.sram := rfl
@[simp] theorem State.withOutcome_mirrorPolicy (l : Label) : (s.withOutcome l).mirrorPolicy = s.mirrorPolicy := rfl
@[simp] theorem State.withOutcome_sramPolicy (l : Label) : (s.withOutcome l).sramPolicy = s.sramPolicy := rfl
@[simp] theorem State.withOutcome_sampleMode (l : Label) : (s.withOutcome l).sampleMode = s.sampleMode := rfl
@[simp] theorem State.withOutcome_ctrlActiveLow (l : Label) : (s.withOutcome l).ctrlActiveLow = s.ctrlActiveLow := rfl
@[simp] theorem State.withOutcome_phase (l : Label) : (s.withOutcome l).phase = s.phase := rfl
@[simp] theorem State.withOutcome_active (l : Label) : (s.withOutcome l).active = s.active := rfl
@[simp] theorem State.withOutcome_snap (l : Label) : (s.withOutcome l).snap = s.snap := rfl
@[simp] theorem State.withOutcome_loc (l : Label) : (s.withOutcome l).loc = s.loc := rfl
@[simp] theorem State.withOutcome_pendingByte (l : Label) : (s.withOutcome l).pendingByte = s.pendingByte := rfl
@[simp] theorem State.withOutcome_sent (l : Label) : (s.withOutcome l).sent = s.sent := rfl
@[simp] theorem State.withOutcome_outcome (l : Label) : (s.withOutcome l).outcome = some l := rfl
@[simp] theorem State.withOutcome_result (l : Label) : (s.withOutcome l).result = s.result := rfl
@[simp] theorem State.withOutcome_bus (l : Label) : (s.withOutcome l).bus = s.bus := rfl
@[simp] theorem State.withOutcome_schedule (l : Label) : (s.withOutcome l).schedule = s.schedule := rfl

@[simp] theorem State.withResult_mode (r : Result) : (s.withResult r).mode = s.mode := rfl
@[simp] theorem State.withResult_rom (r : Result) : (s.withResult r).rom = s.rom := rfl
@[simp] theorem State.withResult_romSize (r : Result) : (s.withResult r).romSize = s.romSize := rfl
@[simp] theorem State.withResult_sramSizeClass (r : Result) : (s.withResult r).sramSizeClass = s.sramSizeClass := rfl
@[simp] theorem State.withResult_sram (r : Result) : (s.withResult r).sram = s.sram := rfl
@[simp] theorem State.withResult_mirrorPolicy (r : Result) : (s.withResult r).mirrorPolicy = s.mirrorPolicy := rfl
@[simp] theorem State.withResult_sramPolicy (r : Result) : (s.withResult r).sramPolicy = s.sramPolicy := rfl
@[simp] theorem State.withResult_sampleMode (r : Result) : (s.withResult r).sampleMode = s.sampleMode := rfl
@[simp] theorem State.withResult_ctrlActiveLow (r : Result) : (s.withResult r).ctrlActiveLow = s.ctrlActiveLow := rfl
@[simp] theorem State.withResult_phase (r : Result) : (s.withResult r).phase = s.phase := rfl
@[simp] theorem State.withResult_active (r : Result) : (s.withResult r).active = s.active := rfl
@[simp] theorem State.withResult_snap (r : Result) : (s.withResult r).snap = s.snap := rfl
@[simp] theorem State.withResult_loc (r : Result) : (s.withResult r).loc = s.loc := rfl
@[simp] theorem State.withResult_pendingByte (r : Result) : (s.withResult r).pendingByte = s.pendingByte := rfl
@[simp] theorem State.withResult_sent (r : Result) : (s.withResult r).sent = s.sent := rfl
@[simp] theorem State.withResult_outcome (r : Result) : (s.withResult r).outcome = s.outcome := rfl
@[simp] theorem State.withResult_result (r : Result) : (s.withResult r).result = r := rfl
@[simp] theorem State.withResult_bus (r : Result) : (s.withResult r).bus = s.bus := rfl
@[simp] theorem State.withResult_schedule (r : Result) : (s.withResult r).schedule = s.schedule := rfl

@[simp] theorem State.withPending_mode (d : Byte) : (s.withPending d).mode = s.mode := rfl
@[simp] theorem State.withPending_rom (d : Byte) : (s.withPending d).rom = s.rom := rfl
@[simp] theorem State.withPending_romSize (d : Byte) : (s.withPending d).romSize = s.romSize := rfl
@[simp] theorem State.withPending_sramSizeClass (d : Byte) : (s.withPending d).sramSizeClass = s.sramSizeClass := rfl
@[simp] theorem State.withPending_sram (d : Byte) : (s.withPending d).sram = s.sram := rfl
@[simp] theorem State.withPending_mirrorPolicy (d : Byte) : (s.withPending d).mirrorPolicy = s.mirrorPolicy := rfl
@[simp] theorem State.withPending_sramPolicy (d : Byte) : (s.withPending d).sramPolicy = s.sramPolicy := rfl
@[simp] theorem State.withPending_sampleMode (d : Byte) : (s.withPending d).sampleMode = s.sampleMode := rfl
@[simp] theorem State.withPending_ctrlActiveLow (d : Byte) : (s.withPending d).ctrlActiveLow = s.ctrlActiveLow := rfl
@[simp] theorem State.withPending_phase (d : Byte) : (s.withPending d).phase = .sendPending := rfl
@[simp] theorem State.withPending_active (d : Byte) : (s.withPending d).active = s.active := rfl
@[simp] theorem State.withPending_snap (d : Byte) : (s.withPending d).snap = s.snap := rfl
@[simp] theorem State.withPending_loc (d : Byte) : (s.withPending d).loc = s.loc := rfl
@[simp] theorem State.withPending_pendingByte (d : Byte) : (s.withPending d).pendingByte = d := rfl
@[simp] theorem State.withPending_sent (d : Byte) : (s.withPending d).sent = s.sent := rfl
@[simp] theorem State.withPending_outcome (d : Byte) : (s.withPending d).outcome = s.outcome := rfl
@[simp] theorem State.withPending_result (d : Byte) : (s.withPending d).result = s.result := rfl
@[simp] theorem State.withPending_bus (d : Byte) : (s.withPending d).bus = s.bus := rfl
@[simp] theorem State.withPending_schedule (d : Byte) : (s.withPending d).schedule = s.schedule := rfl

@[simp] theorem State.withPhase_mode (p : Phase) : (s.withPhase p).mode = s.mode := rfl
@[simp] theorem State.withPhase_rom (p : Phase) : (s.withPhase p).rom = s.rom := rfl
@[simp] theorem State.withPhase_romSize (p : Phase) : (s.withPhase p).romSize = s.romSize := rfl
@[simp] theorem State.withPhase_sramSizeClass (p : Phase) : (s.withPhase p).sramSizeClass = s.sramSizeClass := rfl
@[simp] theorem State.withPhase_sram (p : Phase) : (s.withPhase p).sram = s.sram := rfl
@[simp] theorem State.withPhase_mirrorPolicy (p : Phase) : (s.withPhase p).mirrorPolicy = s.mirrorPolicy := rfl
@[simp] theorem State.withPhase_sramPolicy (p : Phase) : (s.withPhase p).sramPolicy = s.sramPolicy := rfl
@[simp] theorem State.withPhase_sampleMode (p : Phase) : (s.withPhase p).sampleMode = s.sampleMode := rfl
@[simp] theorem State.withPhase_ctrlActiveLow (p : Phase) : (s.withPhase p).ctrlActiveLow = s.ctrlActiveLow := rfl
@[simp] theorem State.withPhase_phase (p : Phase) : (s.withPhase p).phase = p := rfl
@[simp] theorem State.withPhase_active (p : Phase) : (s.withPhase p).active = s.active := rfl
@[simp] theorem State.withPhase_snap (p : Phase) : (s.withPhase p).snap = s.snap := rfl
@[simp] theorem State.withPhase_loc (p : Phase) : (s.withPhase p).loc = s.loc := rfl
@[simp] theorem State.withPhase_pendingByte (p : Phase) : (s.withPhase p).pendingByte = s.pendingByte := rfl
@[simp] theorem State.withPhase_sent (p : Phase) : (s.withPhase p).sent = s.sent := rfl
@[simp] theorem State.withPhase_outcome (p : Phase) : (s.withPhase p).outcome = s.outcome := rfl
@[simp] theorem State.withPhase_result (p : Phase) : (s.withPhase p).result = s.result := rfl
@[simp] theorem State.withPhase_bus (p : Phase) : (s.withPhase p).bus = s.bus := rfl
@[simp] theorem State.withPhase_schedule (p : Phase) : (s.withPhase p).schedule = s.schedule := rfl

@[simp] theorem State.withSent_mode (d : Byte) : (s.withSent d).mode = s.mode := rfl
@[simp] theorem State.withSent_rom (d : Byte) : (s.withSent d).rom = s.rom := rfl
@[simp] theorem State.withSent_romSize (d : Byte) : (s.withSent d).romSize = s.romSize := rfl
@[simp] theorem State.withSent_sramSizeClass (d : Byte) : (s.withSent d).sramSizeClass = s.sramSizeClass := rfl
@[simp] theorem State.withSent_sram (d : Byte) : (s.withSent d).sram = s.sram := rfl
@[simp] theorem State.withSent_mirrorPolicy (d : Byte) : (s.withSent d).mirrorPolicy = s.mirrorPolicy := rfl
@[simp] theorem State.withSent_sramPolicy (d : Byte) : (s.withSent d).sramPolicy = s.sramPolicy := rfl
@[simp] theorem State.withSent_sampleMode (d : Byte) : (s.withSent d).sampleMode = s.sampleMode := rfl
@[simp] theorem State.withSent_ctrlActiveLow (d : Byte) : (s.withSent d).ctrlActiveLow = s.ctrlActiveLow := rfl
@[simp] theorem State.withSent_phase (d : Byte) : (s.withSent d).phase = s.phase := rfl
@[simp] theorem State.withSent_active (d : Byte) : (s.withSent d).active = s.active := rfl
@[simp] theorem State.withSent_snap (d : Byte) : (s.withSent d).snap = s.snap := rfl
@[simp] theorem State.withSent_loc (d : Byte) : (s.withSent d).loc = s.loc := rfl
@[simp] theorem State.withSent_pendingByte (d : Byte) : (s.withSent d).pendingByte = s.pendingByte := rfl
@[simp] theorem State.withSent_sent (d : Byte) : (s.withSent d).sent = s.sent ++ [d] := rfl
@[simp] theorem State.withSent_outcome (d : Byte) : (s.withSent d).outcome = s.outcome := rfl
@[simp] theorem State.withSent_result (d : Byte) : (s.withSent d).result = s.result := rfl
@[simp] theorem State.withSent_bus (d : Byte) : (s.withSent d).bus = s.bus := rfl
@[simp] theorem State.withSent_schedule (d : Byte) : (s.withSent d).schedule = s.schedule := rfl

@[simp] theorem State.withBus_mode (l : Lines) : (s.withBus l).mode = s.mode := rfl
@[simp] theorem State.withBus_rom (l : Lines) : (s.withBus l).rom = s.rom := rfl
@[simp] theorem State.withBus_romSize (l : Lines) : (s.withBus l).romSize = s.romSize := rfl
@[simp] theorem State.withBus_sramSizeClass (l : Lines) : (s.withBus l).sramSizeClass = s.sramSizeClass := rfl
@[simp] theorem State.withBus_sram (l : Lines) : (s.withBus l).sram = s.sram := rfl
@[simp] theorem State.withBus_mirrorPolicy (l : Lines) : (s.withBus l).mirrorPolicy = s.mirrorPolicy := rfl
@[simp] theorem State.withBus_sramPolicy (l : Lines) : (s.withBus l).sramPolicy = s.sramPolicy := rfl
@[simp] theorem State.withBus_sampleMode (l : Lines) : (s.withBus l).sampleMode = s.sampleMode := rfl
@[simp] theorem State.withBus_ctrlActiveLow (l : Lines) : (s.withBus l).ctrlActiveLow = s.ctrlActiveLow := rfl
@[simp] theorem State.withBus_phase (l : Lines) : (s.withBus l).phase = s.phase := rfl
@[simp] theorem State.withBus_active (l : Lines) : (s.withBus l).active = s.active := rfl
@[simp] theorem State.withBus_snap (l : Lines) : (s.withBus l).snap = s.snap := rfl
@[simp] theorem State.withBus_loc (l : Lines) : (s.withBus l).loc = s.loc := rfl
@[simp] theorem State.withBus_pendingByte (l : Lines) : (s.withBus l).pendingByte = s.pendingByte := rfl
@[simp] theorem State.withBus_sent (l : Lines) : (s.withBus l).sent = s.sent := rfl
@[simp] theorem State.withBus_outcome (l : Lines) : (s.withBus l).outcome = s.outcome := rfl
@[simp] theorem State.withBus_result (l : Lines) : (s.withBus l).result = s.result := rfl
@[simp] theorem State.withBus_bus (l : Lines) : (s.withBus l).bus = l := rfl
@[simp] theorem State.withBus_schedule (l : Lines) : (s.withBus l).schedule = s.schedule := rfl

@[simp] theorem State.withSchedule_mode (es : List Event) : (s.withSchedule es).mode = s.mode := rfl
@[simp] theorem State.withSchedule_rom (es : List Event) : (s.withSchedule es).rom = s.rom := rfl
@[simp] theorem State.withSchedule_romSize (es : List Event) : (s.withSchedule es).romSize = s.romSize := rfl
@[simp] theorem State.withSchedule_sramSizeClass (es : List Event) : (s.withSchedule es).sramSizeClass = s.sramSizeClass := rfl
@[simp] theorem State.withSchedule_sram (es : List Event) : (s.withSchedule es).sram = s.sram := rfl
@[simp] theorem State.withSchedule_mirrorPolicy (es : List Event) : (s.withSchedule es).mirrorPolicy = s.mirrorPolicy := rfl
@[simp] theorem State.withSchedule_sramPolicy (es : List Event) : (s.withSchedule es).sramPolicy = s.sramPolicy := rfl
@[simp] theorem State.withSchedule_sampleMode (es : List Event) : (s.withSchedule es).sampleMode = s.sampleMode := rfl
@[simp] theorem State.withSchedule_ctrlActiveLow (es : List Event) : (s.withSchedule es).ctrlActiveLow = s.ctrlActiveLow := rfl
@[simp] theorem State.withSchedule_phase (es : List Event) : (s.withSchedule es).phase = s.phase := rfl
@[simp] theorem State.withSchedule_active (es : List Event) : (s.withSchedule es).active = s.active := rfl
@[simp] theorem State.withSchedule_snap (es : List Event) : (s.withSchedule es).snap = s.snap := rfl
@[simp] theorem State.withSchedule_loc (es : List Event) : (s.withSchedule es).loc = s.loc := rfl
@[simp] theorem State.withSchedule_pendingByte (es : List Event) : (s.withSchedule es).pendingByte = s.pendingByte := rfl
@[simp] theorem State.withSchedule_sent (es : List Event) : (s.withSchedule es).sent = s.sent := rfl
@[simp] theorem State.withSchedule_outcome (es : List Event) : (s.withSchedule es).outcome = s.outcome := rfl
@[simp] theorem State.withSchedule_result (es : List Event) : (s.withSchedule es).result = s.result := rfl
@[simp] theorem State.withSchedule_bus (es : List Event) : (s.withSchedule es).bus = s.bus := rfl
@[simp] theorem State.withSchedule_schedule (es : List Event) : (s.withSchedule es).schedule = es := rfl

end Sys2Proof.Machine
end

