-- ==== Sys2Proof/Laws/Ops.lean ====
section
/-! SUPPORT. What each shared operation can do, said once. -/

namespace Sys2Proof.Machine

/-! Images. -/

theorem Cells.ofBytesFrom_wfFrom (bytes : List Byte) (k low : Nat) (h : low ≤ k) :
    Cells.wfFrom low (Cells.ofBytesFrom k bytes) = true := by
  induction bytes generalizing k low with
  | nil => rfl
  | cons b rest ih =>
    unfold Cells.ofBytesFrom
    split
    · exact ih _ _ (by omega)
    · simp [Cells.wfFrom, ih (k + 1) (k + 1) (Nat.le_refl _), *]

/-- The load-time accessor keeps the canonical form. -/
theorem Cells.ofBytes_wf (bytes : List Byte) : Cells.wf (Cells.ofBytes bytes) = true :=
  Cells.ofBytesFrom_wfFrom bytes 0 0 (Nat.le_refl _)

theorem Cells.ofBytesFrom_below (bytes : List Byte) (k n : Nat) (h : k + bytes.length ≤ n) :
    Cells.below n (Cells.ofBytesFrom k bytes) = true := by
  induction bytes generalizing k with
  | nil => rfl
  | cons b rest ih =>
    simp only [List.length_cons] at h
    unfold Cells.ofBytesFrom
    split
    · exact ih _ (by omega)
    · have := ih (k + 1) (by omega)
      simp only [Cells.below] at this ⊢
      simp [this]; omega

theorem Cells.ofBytes_below (bytes : List Byte) : Cells.below bytes.length (Cells.ofBytes bytes) = true :=
  Cells.ofBytesFrom_below bytes 0 _ (by omega)

theorem Cells.lookup_ofBytesFrom (bytes : List Byte) (k j : Nat) :
    Cells.lookup (Cells.ofBytesFrom k bytes) j = if k ≤ j then bytes.getD (j - k) unlistedByte else unlistedByte := by
  induction bytes generalizing k with
  | nil => simp [Cells.ofBytesFrom, Cells.lookup]
  | cons b rest ih =>
    have hstep : j ≠ k → (if k + 1 ≤ j then rest.getD (j - (k + 1)) unlistedByte else unlistedByte)
        = if k ≤ j then (b :: rest).getD (j - k) unlistedByte else unlistedByte := by
      intro hne
      by_cases hk : k ≤ j
      · rw [if_pos (by omega), if_pos hk, show j - k = (j - (k + 1)) + 1 by omega, List.getD_cons_succ]
      · rw [if_neg (by omega), if_neg hk]
    unfold Cells.ofBytesFrom
    split
    · rename_i hb
      by_cases hjk : j = k
      · subst hjk; rw [ih, if_neg (by omega)]; simp [hb]
      · rw [ih, hstep hjk]
    · by_cases hjk : j = k
      · subst hjk; simp [Cells.lookup]
      · simp only [Cells.lookup, if_neg (Ne.symm hjk)]
        rw [ih, hstep hjk]

/-- An image made of a byte sequence reads as the sequence. -/
theorem Cells.lookup_ofBytes (bytes : List Byte) (j : Nat) :
    Cells.lookup (Cells.ofBytes bytes) j = bytes.getD j unlistedByte := by
  rw [Cells.ofBytes, Cells.lookup_ofBytesFrom, if_pos (Nat.zero_le j), Nat.sub_zero]

theorem readImage_of_lt {size : Nat} {cells : List Host.Cell} {k : Nat} (h : k < size) :
    readImage size cells k = some (Cells.lookup cells k) := if_pos h

theorem readImage_of_le {size : Nat} {cells : List Host.Cell} {k : Nat} (h : size ≤ k) :
    readImage size cells k = none := if_neg (Nat.not_lt.mpr h)

/-- SRAM_SIZE is at least 0x400 (R24). -/
theorem sramBytes_ge (cls : Byte) : 0x400 ≤ sramBytes cls := by
  rw [sramBytes, Nat.shiftLeft_eq]
  exact Nat.le_mul_of_pos_right _ (Nat.two_pow_pos _)

/-! The moves' guards. -/

theorem whenSampling_next {s t : State} {m : Host.Outcome State Fault Refusal} (h : whenSampling s m = .next t) :
    s.phase = .sample ∧ m = .next t := by
  unfold whenSampling at h
  split at h <;> simp_all

theorem whenSendPending_next {s t : State} {m : Host.Outcome State Fault Refusal}
    (h : whenSendPending s m = .next t) : s.phase = .sendPending ∧ m = .next t := by
  unfold whenSendPending at h
  split at h <;> simp_all

theorem whenRunning_next {s t : State} {m : Host.Outcome State Fault Refusal} (h : whenRunning s m = .next t) :
    (s.phase = .sample ∨ s.phase = .sendPending) ∧ m = .next t := by
  unfold whenRunning at h
  split at h <;> simp_all

@[simp] theorem whenSampling_sample {s : State} (m : Host.Outcome State Fault Refusal) (h : s.phase = .sample) :
    whenSampling s m = m := by simp [whenSampling, h]

@[simp] theorem whenSendPending_pending {s : State} (m : Host.Outcome State Fault Refusal)
    (h : s.phase = .sendPending) : whenSendPending s m = m := by simp [whenSendPending, h]

end Sys2Proof.Machine
end

