-- ==== Sys2Proof/Laws/PerInstr.lean ====
section
/-! SUPPORT. Statements made per instruction. `Encoded`: the word of an operation fits its format (R60, R62, R63, R68). -/

namespace Sys2Proof.Laws

/-- The encoder's word fits the width of its format. -/
def Encoded.Statement (i : Instr) : Prop := encode i < 2 ^ i.format.width

theorem Encoded.idle (rd wr : Bool) (a : Addr) : Encoded.Statement (.idle rd wr a) := BitVec.isLt _

theorem Encoded.activeNone (a : Addr) : Encoded.Statement (.activeNone a) := BitVec.isLt _

theorem Encoded.activeRead (a : Addr) : Encoded.Statement (.activeRead a) := BitVec.isLt _

theorem Encoded.activeWrite (a : Addr) : Encoded.Statement (.activeWrite a) := BitVec.isLt _

theorem Encoded.activeReadWrite (a : Addr) : Encoded.Statement (.activeReadWrite a) := BitVec.isLt _

theorem Encoded.nofold80 (a : Addr) : Encoded.Statement (.nofold80 a) := BitVec.isLt _

theorem Encoded.fold81 (a : Addr) : Encoded.Statement (.fold81 a) := BitVec.isLt _

theorem Encoded.fold8283 (a : Addr) : Encoded.Statement (.fold8283 a) := BitVec.isLt _

theorem Encoded.fold8487 (a : Addr) : Encoded.Statement (.fold8487 a) := BitVec.isLt _

theorem Encoded.fold888F (a : Addr) : Encoded.Statement (.fold888F a) := BitVec.isLt _

theorem Encoded.fold909F (a : Addr) : Encoded.Statement (.fold909F a) := BitVec.isLt _

theorem Encoded.foldA0BF (a : Addr) : Encoded.Statement (.foldA0BF a) := BitVec.isLt _

theorem Encoded.foldC0FF (a : Addr) : Encoded.Statement (.foldC0FF a) := BitVec.isLt _

theorem Encoded.nofoldLow (a : Addr) : Encoded.Statement (.nofoldLow a) := BitVec.isLt _

theorem Encoded.loRom003FHi (a' : Addr) : Encoded.Statement (.loRom003FHi a') := BitVec.isLt _

theorem Encoded.loMirror003FLo (a' : Addr) : Encoded.Statement (.loMirror003FLo a') := BitVec.isLt _

theorem Encoded.loRom405F (a' : Addr) : Encoded.Statement (.loRom405F a') := BitVec.isLt _

theorem Encoded.loRom606F (a' : Addr) : Encoded.Statement (.loRom606F a') := BitVec.isLt _

theorem Encoded.loSram707F (a' : Addr) : Encoded.Statement (.loSram707F a') := BitVec.isLt _

theorem Encoded.loRom707FHi (a' : Addr) : Encoded.Statement (.loRom707FHi a') := BitVec.isLt _

theorem Encoded.loSram80 (a' : Addr) : Encoded.Statement (.loSram80 a') := BitVec.isLt _

theorem Encoded.loRom80Hi (a' : Addr) : Encoded.Statement (.loRom80Hi a') := BitVec.isLt _

theorem Encoded.hiRom001F (a' : Addr) : Encoded.Statement (.hiRom001F a') := BitVec.isLt _

theorem Encoded.hiSram203F (a' : Addr) : Encoded.Statement (.hiSram203F a') := BitVec.isLt _

theorem Encoded.hiRom203FHi (a' : Addr) : Encoded.Statement (.hiRom203FHi a') := BitVec.isLt _

theorem Encoded.hiRom407F (a' : Addr) : Encoded.Statement (.hiRom407F a') := BitVec.isLt _

theorem Encoded.hiRom80 (a' : Addr) : Encoded.Statement (.hiRom80 a') := BitVec.isLt _

theorem Encoded.exLoUnmapped (a' : Addr) : Encoded.Statement (.exLoUnmapped a') := BitVec.isLt _

theorem Encoded.exHiUnmapped (a' : Addr) : Encoded.Statement (.exHiUnmapped a') := BitVec.isLt _

theorem Encoded.getUnmapped (k : Addr) : Encoded.Statement (.getUnmapped k) := BitVec.isLt _

theorem Encoded.getRom (k : Addr) : Encoded.Statement (.getRom k) := BitVec.isLt _

theorem Encoded.getSram (k : Addr) : Encoded.Statement (.getSram k) := BitVec.isLt _

end Sys2Proof.Laws
end

