-- ==== Sys2Proof/Laws/Sample.lean ====
section
/-! SUPPORT. What a sample holds, bit by bit, and the order of its read instants. -/

namespace Sys2Proof.Machine

/-- Address line N gives bit N (R82). -/
theorem getLsbD_assembleBits (f : Nat → Bool) (n i : Nat) :
    (assembleBits f n).getLsbD i = (decide (i < n) && f i) := by
  induction n with
  | zero => simp [assembleBits]
  | succ n ih =>
    rw [assembleBits, BitVec.getLsbD_cons, ih]
    by_cases h : i = n
    · subst h; simp
    · simp only [if_neg h]
      congr 1
      rw [decide_eq_decide]; omega

theorem assembleBits_self (a : Addr) : assembleBits (fun n => a.getLsbD n) 24 = a := by
  apply BitVec.eq_of_getLsbD_eq
  intro i hi
  rw [getLsbD_assembleBits]; simp [hi]

@[simp] theorem snapshotWord_addr (cs wr rd : Bool) (a : Addr) : (snapshotWord cs wr rd a).extractLsb' 0 24 = a :=
  BitVec.extractLsb'_append_eq_right

theorem snapshotWord_rd (cs wr rd : Bool) (a : Addr) : (snapshotWord cs wr rd a).getLsbD 24 = rd := by
  rw [snapshotWord, BitVec.getLsbD_append]
  simp only [Nat.reduceLT, if_false, BitVec.getLsbD_append, BitVec.getLsbD_ofBool]
  simp

@[simp] theorem snapshotWord_getElem_rd (cs wr rd : Bool) (a : Addr) : (snapshotWord cs wr rd a)[24] = rd :=
  snapshotWord_rd cs wr rd a

theorem snapshotWord_wr (cs wr rd : Bool) (a : Addr) : (snapshotWord cs wr rd a).getLsbD 25 = wr := by
  rw [snapshotWord, BitVec.getLsbD_append]
  simp only [Nat.reduceLT, if_false, BitVec.getLsbD_append, BitVec.getLsbD_ofBool]
  simp

@[simp] theorem snapshotWord_getElem_wr (cs wr rd : Bool) (a : Addr) : (snapshotWord cs wr rd a)[25] = wr :=
  snapshotWord_wr cs wr rd a

theorem snapshotWord_cs (cs wr rd : Bool) (a : Addr) : (snapshotWord cs wr rd a).getLsbD 26 = cs := by
  rw [snapshotWord, BitVec.getLsbD_append]
  simp only [Nat.reduceLT, if_false, BitVec.getLsbD_append, BitVec.getLsbD_ofBool]
  simp

@[simp] theorem snapshotWord_getElem_cs (cs wr rd : Bool) (a : Addr) : (snapshotWord cs wr rd a)[26] = cs :=
  snapshotWord_cs cs wr rd a

/-- A snapshot word is its fields. -/
theorem snapshotWord_fields (w : SnapshotWord) :
    snapshotWord (w.getLsbD 26) (w.getLsbD 25) (w.getLsbD 24) (w.extractLsb' 0 24) = w := by
  apply BitVec.eq_of_getLsbD_eq
  intro i hi
  simp only [snapshotWord, BitVec.getLsbD_append, BitVec.getLsbD_ofBool, BitVec.getLsbD_extractLsb']
  by_cases h24 : i < 24
  · simp [h24]
  · obtain rfl | rfl | rfl : i = 24 ∨ i = 25 ∨ i = 26 := by omega
    all_goals simp

theorem assertedBit_involutive (low b : Bool) : assertedBit low (assertedBit low b) = b := by
  cases low <;> cases b <;> rfl

/-- Lines made for a word sample to it. -/
theorem atomicWord_linesFor (low : Bool) (w : SnapshotWord) : atomicWord low (linesFor low w) = w := by
  simp only [atomicWord, linesFor, assertedBit_involutive, assembleBits_self, snapshotWord_fields]

theorem t0_le_addrInstant (w : Window) (n : Nat) : w.t0 ≤ w.addrInstant n := Nat.le_max_left _ _

theorem foldl_max_ge (f : Nat → Nat) (l : List Nat) (t : Nat) : t ≤ l.foldl (fun x n => max x (f n)) t := by
  induction l generalizing t with
  | nil => exact Nat.le_refl t
  | cons x rest ih => exact Nat.le_trans (Nat.le_max_left t (f x)) (ih _)

theorem le_foldl_max (f : Nat → Nat) (l : List Nat) (t n : Nat) (h : n ∈ l) :
    f n ≤ l.foldl (fun x n => max x (f n)) t := by
  induction l generalizing t with
  | nil => exact absurd h List.not_mem_nil
  | cons x rest ih =>
    rw [List.foldl_cons]
    rcases List.mem_cons.mp h with rfl | h'
    · exact Nat.le_trans (Nat.le_max_right t (f n)) (foldl_max_ge f rest _)
    · exact ih _ h'

/-- Every address line is read by t1 (R84). -/
theorem addrInstant_le_addrEnd (w : Window) (n : Nat) (h : n < 24) : w.addrInstant n ≤ w.addrEnd :=
  le_foldl_max _ _ _ n (List.mem_range.mpr h)

/-- RD is read no earlier than t1 (R84). -/
theorem addrEnd_le_rdInstant (w : Window) : w.addrEnd ≤ w.rdInstant := Nat.le_max_left _ _

@[simp] theorem busAt_still (wr : Bool) (now : Lines) (t : Nat) : (Window.still wr).busAt now t = now := by
  cases t <;> rfl

@[simp] theorem lastBus_still (wr : Bool) (now : Lines) : (Window.still wr).lastBus now = now := rfl

@[simp] theorem lastBus_pollWindow (s : State) : s.pollWindow.lastBus s.bus = s.bus := rfl

/-- On a bus that holds still both sampling modes read the word of that bus, when WR is read from its line too. -/
theorem sampleWord_still {s : State} {wr : Bool} (h : wr = assertedBit s.ctrlActiveLow s.bus.wr) :
    sampleWord s (Window.still wr) = atomicWord s.ctrlActiveLow s.bus := by
  subst h
  cases hm : s.sampleMode <;> simp [sampleWord, hm, sequentialWord, atomicWord, Window.still, Window.busAt,
    Window.states, Window.lastBus]

/-- A bus that holds a word's lines still samples to that word, in both sampling modes. -/
theorem sampleWord_still_linesFor {s : State} {v : SnapshotWord} (h : s.bus = linesFor s.ctrlActiveLow v) :
    sampleWord s (Window.still (v.getLsbD 25)) = v := by
  rw [sampleWord_still (by rw [h, linesFor, assertedBit_involutive]), h, atomicWord_linesFor]

/-- The loop's own poll takes the word of the bus as it stands, in both sampling modes. -/
theorem sampleWord_pollWindow (s : State) : sampleWord s s.pollWindow = atomicWord s.ctrlActiveLow s.bus :=
  sampleWord_still rfl

end Sys2Proof.Machine
end

