-- ==== Sys2Proof/Laws/Step.lean ====
section
/-! SUPPORT. What an operation and a step can do, said once: each invariant is a case analysis over these. -/

namespace Sys2Proof.Machine

/-- Reading an image does not depend on the loop's latches. -/
theorem State.get_congr {s t : State} (h : SameSession s t) (loc : Location) : t.get loc = s.get loc := by
  cases loc <;> simp [State.get, State.romByte, State.sramByte, State.sramSize, h.rom, h.romSize, h.sram, h.sramSizeClass]

theorem SameSession.refl (s : State) : SameSession s s := ⟨rfl, rfl, rfl, rfl, rfl, rfl, rfl, rfl, rfl⟩

theorem SameSession.trans {s t u : State} (h : SameSession s t) (g : SameSession t u) : SameSession s u :=
  ⟨g.mode.trans h.mode, g.rom.trans h.rom, g.romSize.trans h.romSize, g.sramSizeClass.trans h.sramSizeClass,
    g.sram.trans h.sram, g.mirrorPolicy.trans h.mirrorPolicy, g.sramPolicy.trans h.sramPolicy,
    g.sampleMode.trans h.sampleMode, g.ctrlActiveLow.trans h.ctrlActiveLow⟩

theorem SameSession.memory {s t : State} (h : SameSession s t) : Memory.wf t = Memory.wf s := by
  simp [Memory.wf, State.sramSize, h.rom, h.romSize, h.sram, h.sramSizeClass]

/-- What the read path does after the decode (R143). -/
theorem runRead_cases (s : State) (a : Addr) :
    (∃ d, s.get s.loc = some d ∧ s.runRead a = (s.withPending d).withOutcome (.sendIssued a s.loc d)) ∨
    (s.get s.loc = none ∧ s.runRead a = s.withOutcome (noByteLabel a s.mode s.loc)) := by
  unfold State.runRead
  cases h : s.get s.loc with
  | none => exact .inr ⟨rfl, rfl⟩
  | some d => exact .inl ⟨d, rfl, rfl⟩

/-- What an operation can do when it answers a next state: a fold class or a mux select writes the result port, a
region writes LOC, and a bus class runs from PHASE = SAMPLE, ends without a send, or ends with one pending. -/
theorem exec_cases {i : Instr} {s t : State} (h : exec i s = .next t) :
    (∃ r, t = s.withResult r) ∨
    (i.format = .decodeWord ∧ ∃ loc, t = s.withLoc loc) ∨
    (s.phase = .sample ∧ ∃ word l, t = (s.withSample word).withOutcome l) ∨
    (s.phase = .sample ∧ ∃ word a l, t = ((s.withSample word).withLoc (s.decoded a)).withOutcome l) ∨
    (s.phase = .sample ∧ ∃ word a d l, s.get (s.decoded a) = some d ∧
      t = (((s.withSample word).withLoc (s.decoded a)).withPending d).withOutcome l) := by
  have read (word : SnapshotWord) (a : Addr) (hp : s.phase = .sample)
      (ht : ((s.withSample word).runDecode a).runRead a = t) :
      (s.phase = .sample ∧ ∃ word a l, t = ((s.withSample word).withLoc (s.decoded a)).withOutcome l) ∨
      (s.phase = .sample ∧ ∃ word a d l, s.get (s.decoded a) = some d ∧
        t = (((s.withSample word).withLoc (s.decoded a)).withPending d).withOutcome l) := by
    subst ht
    rcases runRead_cases ((s.withSample word).runDecode a) a with ⟨d, hd, he⟩ | ⟨_, he⟩
    · refine .inr ⟨hp, word, a, d, _, ?_, he⟩
      rw [← hd]; exact (State.get_congr ⟨rfl, rfl, rfl, rfl, rfl, rfl, rfl, rfl, rfl⟩ _).symm
    · exact .inl ⟨hp, word, a, _, he⟩
  cases i with
  | idle rd wr a =>
    obtain ⟨hp, ht⟩ := whenSampling_next h
    injection ht with ht
    exact .inr (.inr (.inl ⟨hp, _, _, ht.symm⟩))
  | activeNone a | activeWrite a =>
    obtain ⟨hp, ht⟩ := whenSampling_next h
    injection ht with ht
    exact .inr (.inr (.inr (.inl ⟨hp, _, a, _, ht.symm⟩)))
  | activeRead a | activeReadWrite a =>
    obtain ⟨hp, ht⟩ := whenSampling_next h
    injection ht with ht
    exact .inr (.inr (.inr (read _ a hp ht)))
  | nofold80 a | fold81 a | fold8283 a | fold8487 a | fold888F a | fold909F a | foldA0BF a | foldC0FF a | nofoldLow a
  | getUnmapped a | getRom a | getSram a =>
    injection h with h
    exact .inl ⟨_, h.symm⟩
  | loRom003FHi a | loMirror003FLo a | loRom405F a | loRom606F a | loSram707F a | loRom707FHi a | loSram80 a
  | loRom80Hi a | hiRom001F a | hiSram203F a | hiRom203FHi a | hiRom407F a | hiRom80 a | exLoUnmapped a
  | exHiUnmapped a =>
    injection h with h
    exact .inr (.inl ⟨rfl, _, h.symm⟩)

/-- No operation changes the configuration or an image (R32, R45). -/
theorem exec_sameSession {i : Instr} {s t : State} (h : exec i s = .next t) : SameSession s t := by
  rcases exec_cases h with ⟨_, rfl⟩ | ⟨_, _, rfl⟩ | ⟨_, _, _, rfl⟩ | ⟨_, _, _, _, rfl⟩ | ⟨_, _, _, _, _, _, rfl⟩ <;>
    exact ⟨rfl, rfl, rfl, rfl, rfl, rfl, rfl, rfl, rfl⟩

/-- No operation changes SENT (R31: only an accepted send, a failure or a stop may). -/
theorem exec_sent {i : Instr} {s t : State} (h : exec i s = .next t) : t.sent = s.sent := by
  rcases exec_cases h with ⟨_, rfl⟩ | ⟨_, _, rfl⟩ | ⟨_, _, _, rfl⟩ | ⟨_, _, _, _, rfl⟩ | ⟨_, _, _, _, _, _, rfl⟩ <;> rfl

theorem runWord_next {f : Format} {w : Nat} {s t : State} (h : runWord f w s = .next t) :
    ∃ i, decode f w = .ok i ∧ exec i s = .next t := by
  unfold runWord at h
  split at h
  · exact ⟨_, ‹_›, h⟩
  · cases h

/-- What a move can do when it answers a next state. -/
theorem runEvent_cases {e : Event} {s t : State} (h : runEvent e s = .next t) :
    (∃ l, e = .console l ∧ t = s.withBus l) ∨
    (∃ w i, e = .loop w ∧ decode .snapshot (sampleWord s w).toNat = .ok i ∧
      exec i (s.withBus (w.lastBus s.bus)) = .next t) ∨
    (e = .accept ∧ s.phase = .sendPending ∧
      t = ((s.withSent s.pendingByte).withPhase .sample).withOutcome (.sent s.pendingByte)) ∨
    (∃ b, e = .fail b ∧ s.phase = .sendPending ∧
      t = (s.deliverIf b).raiseTransportFail.withOutcome (.transportFail s.pendingByte)) ∨
    (∃ b, e = .stop b ∧ (s.phase = .sample ∨ s.phase = .sendPending) ∧
      t = (s.deliverIf (b && s.phase == .sendPending)).endSession.withOutcome .stop) ∨
    (∃ f w i, s.phase = .sample ∧ decode f w = .ok i ∧ exec i s = .next t ∧
      ((∃ a, e = .foldCall a ∧ f = .rawAddress ∧ w = a.toNat) ∨
       (∃ a', e = .regionCall a' ∧ f = .decodeWord ∧ w = (regionWord s.mode a').toNat) ∨
       (∃ v, e = .muxCall v ∧ f = .location ∧ w = v.toNat))) := by
  cases e with
  | console l => exact .inl ⟨l, rfl, by simpa [runEvent] using h.symm⟩
  | loop w =>
    obtain ⟨i, hd, hx⟩ := runWord_next h
    exact .inr (.inl ⟨w, i, rfl, hd, hx⟩)
  | accept =>
    obtain ⟨hp, ht⟩ := whenSendPending_next h
    injection ht with ht
    exact .inr (.inr (.inl ⟨rfl, hp, ht.symm⟩))
  | fail b =>
    obtain ⟨hp, ht⟩ := whenSendPending_next h
    injection ht with ht
    exact .inr (.inr (.inr (.inl ⟨b, rfl, hp, ht.symm⟩)))
  | stop b =>
    obtain ⟨hp, ht⟩ := whenRunning_next h
    injection ht with ht
    exact .inr (.inr (.inr (.inr (.inl ⟨b, rfl, hp, ht.symm⟩))))
  | foldCall a =>
    obtain ⟨hp, h⟩ := whenSampling_next h
    obtain ⟨i, hd, hx⟩ := runWord_next h
    exact .inr (.inr (.inr (.inr (.inr ⟨_, _, i, hp, hd, hx, .inl ⟨a, rfl, rfl, rfl⟩⟩))))
  | regionCall a =>
    obtain ⟨hp, h⟩ := whenSampling_next h
    obtain ⟨i, hd, hx⟩ := runWord_next h
    exact .inr (.inr (.inr (.inr (.inr ⟨_, _, i, hp, hd, hx, .inr (.inl ⟨a, rfl, rfl, rfl⟩)⟩))))
  | muxCall v =>
    obtain ⟨hp, h⟩ := whenSampling_next h
    obtain ⟨i, hd, hx⟩ := runWord_next h
    exact .inr (.inr (.inr (.inr (.inr ⟨_, _, i, hp, hd, hx, .inr (.inr ⟨v, rfl, rfl, rfl⟩)⟩))))

/-- A step is the schedule's next move, or the loop's own move on a bus that holds still. -/
theorem step_cases {s t : State} (h : step s = .next t) :
    (s.schedule = [] ∧ runEvent (.loop s.pollWindow) s = .next t) ∨
    (∃ e rest, s.schedule = e :: rest ∧ runEvent e (s.withSchedule rest) = .next t) := by
  unfold step nextMove at h
  split at h
  · exact .inl ⟨‹_›, h⟩
  · exact .inr ⟨_, _, ‹_›, h⟩

/-- In PHASE = SAMPLE every operation answers a next state. -/
theorem exec_next_of_sample (i : Instr) {s : State} (h : s.phase = .sample) : ∃ t, exec i s = .next t := by
  cases i <;> first | exact ⟨_, whenSampling_sample _ h⟩ | exact ⟨_, rfl⟩

/-- A run goes on from where its first part ends. -/
theorem run_add (m n : Nat) {s t : State} (h : Host.Core.run Sys2Proof.core m s = .next t) :
    Host.Core.run Sys2Proof.core (m + n) s = Host.Core.run Sys2Proof.core n t := by
  induction m generalizing s with
  | zero => injection h with h; rw [h, Nat.zero_add]
  | succ m ih =>
    rw [show m + 1 + n = (m + n) + 1 by omega]
    simp only [Host.Core.run] at h ⊢
    split at h
    · exact ih h
    · cases h
    · cases h

end Sys2Proof.Machine
end

