-- ==== Sys2Proof/Tests/Slice0.lean ====
section
/-! SUPPORT. Tests. Every expected result is a vector of spec/95_test_vectors.md or a rule's own example, named at the test; words are written out from spec/30_encoding.md. After them, one witness for every statement with hypotheses. -/

namespace Sys2Proof.Tests

open Sys2Proof Sys2Proof.Machine

/-! ## Well-formedness: an operand outside each row's range is refused (R68, R69, R62) -/

theorem test_illFormed_fold :
    [Instr.nofold80 0x7FFFFF, .nofold80 0x810000, .fold81 0x80FFFF, .fold81 0x820000, .fold8283 0x81FFFF,
     .fold8283 0x840000, .fold8487 0x83FFFF, .fold8487 0x880000, .fold888F 0x87FFFF, .fold888F 0x900000,
     .fold909F 0x8FFFFF, .fold909F 0xA00000, .foldA0BF 0x9FFFFF, .foldA0BF 0xC00000, .foldC0FF 0xBFFFFF,
     .nofoldLow 0x800000].all (fun i => !i.wellFormed) = true := by decide

theorem test_illFormed_loROM :
    [Instr.loRom003FHi 0x408000, .loRom003FHi 0x007FFF, .loMirror003FLo 0x400000, .loMirror003FLo 0x008000,
     .loRom405F 0x3FFFFF, .loRom405F 0x600000, .loRom606F 0x5FFFFF, .loRom606F 0x700000, .loSram707F 0x6F0000,
     .loSram707F 0x800000, .loSram707F 0x708000, .loRom707FHi 0x6F8000, .loRom707FHi 0x808000, .loRom707FHi 0x707FFF,
     .loSram80 0x7F0000, .loSram80 0x810000, .loSram80 0x808000, .loRom80Hi 0x7F8000, .loRom80Hi 0x818000,
     .loRom80Hi 0x807FFF].all (fun i => !i.wellFormed) = true := by decide

theorem test_illFormed_hiROM_mux :
    [Instr.hiRom001F 0x200000, .hiSram203F 0x1F0000, .hiSram203F 0x400000, .hiSram203F 0x208000, .hiRom203FHi 0x1F8000,
     .hiRom203FHi 0x408000, .hiRom203FHi 0x207FFF, .hiRom407F 0x3FFFFF, .hiRom407F 0x800000, .hiRom80 0x7FFFFF,
     .hiRom80 0x810000, .getUnmapped 1].all (fun i => !i.wellFormed) = true := by decide

/-! ## Decoding of written-out words -/

/-- 95_test_vectors.md 2.1: CS, WR, RD in bits 26, 25, 24, then the 24 address lines. -/
theorem test_decode_bus :
    decode .snapshot 0b000000000000000000000000000 = .ok (.idle false false 0x000000) ∧
    decode .snapshot 0b001000000001000000000000000 = .ok (.idle true false 0x008000) ∧
    decode .snapshot 0b011111111111111111111111111 = .ok (.idle true true 0xFFFFFF) ∧
    decode .snapshot 0b010011100000000000000000000 = .ok (.idle false true 0x700000) ∧
    decode .snapshot 0b100000000001000000000000000 = .ok (.activeNone 0x008000) ∧
    decode .snapshot 0b101000000001000000000000000 = .ok (.activeRead 0x008000) ∧
    decode .snapshot 0b110011100000000000000000000 = .ok (.activeWrite 0x700000) ∧
    decode .snapshot 0b111000000001000000000000000 = .ok (.activeReadWrite 0x008000) :=
  ⟨rfl, rfl, rfl, rfl, rfl, rfl, rfl, rfl⟩

/-- 95_test_vectors.md 2.2 and the bank ranges of R68. -/
theorem test_decode_fold :
    decode .rawAddress 0b100000000000000000000000 = .ok (.nofold80 0x800000) ∧
    decode .rawAddress 0b100000011000000000000000 = .ok (.fold81 0x818000) ∧
    decode .rawAddress 0b100000110000000000000000 = .ok (.fold8283 0x830000) ∧
    decode .rawAddress 0b100001110000000000000000 = .ok (.fold8487 0x870000) ∧
    decode .rawAddress 0b100011110000000000000000 = .ok (.fold888F 0x8F0000) ∧
    decode .rawAddress 0b100111110111111111111111 = .ok (.fold909F 0x9F7FFF) ∧
    decode .rawAddress 0b101111111000000000000000 = .ok (.foldA0BF 0xBF8000) ∧
    decode .rawAddress 0b111111111111111111111111 = .ok (.foldC0FF 0xFFFFFF) ∧
    decode .rawAddress 0b011111111111111111111111 = .ok (.nofoldLow 0x7FFFFF) :=
  ⟨rfl, rfl, rfl, rfl, rfl, rfl, rfl, rfl, rfl⟩

/-- 95_test_vectors.md 2.5 and L1.2, LoROM: MODE 00 in bits 25:24, then A'. -/
theorem test_decode_loROM :
    decode .decodeWord 0b00000000001000000000000000 = .ok (.loRom003FHi 0x008000) ∧
    decode .decodeWord 0b00001111110000000000000000 = .ok (.loMirror003FLo 0x3F0000) ∧
    decode .decodeWord 0b00010111111111111111111111 = .ok (.loRom405F 0x5FFFFF) ∧
    decode .decodeWord 0b00011000000000000000000000 = .ok (.loRom606F 0x600000) ∧
    decode .decodeWord 0b00011100000111111111111111 = .ok (.loSram707F 0x707FFF) ∧
    decode .decodeWord 0b00011111111111111111111111 = .ok (.loRom707FHi 0x7FFFFF) ∧
    decode .decodeWord 0b00100000000000000000000000 = .ok (.loSram80 0x800000) ∧
    decode .decodeWord 0b00100000001000000000000000 = .ok (.loRom80Hi 0x808000) :=
  ⟨rfl, rfl, rfl, rfl, rfl, rfl, rfl, rfl⟩

/-- 95_test_vectors.md 2.5, HiROM (MODE 01) and the extended modes (10, 11). -/
theorem test_decode_hiROM_ex :
    decode .decodeWord 0b01000111111111111111111111 = .ok (.hiRom001F 0x1FFFFF) ∧
    decode .decodeWord 0b01001000000111111111111111 = .ok (.hiSram203F 0x207FFF) ∧
    decode .decodeWord 0b01001111111000000000000000 = .ok (.hiRom203FHi 0x3F8000) ∧
    decode .decodeWord 0b01011111111111111111111111 = .ok (.hiRom407F 0x7FFFFF) ∧
    decode .decodeWord 0b01100000001111111111111111 = .ok (.hiRom80 0x80FFFF) ∧
    decode .decodeWord 0b10011111111111111111111111 = .ok (.exLoUnmapped 0x7FFFFF) ∧
    decode .decodeWord 0b11100000000000000000000000 = .ok (.exHiUnmapped 0x800000) :=
  ⟨rfl, rfl, rfl, rfl, rfl, rfl, rfl⟩

/-- 95_test_vectors.md 2.6: TAG in bits 25:24, then K. -/
theorem test_decode_mux :
    decode .location 0b00000000000000000000000000 = .ok (.getUnmapped 0) ∧
    decode .location 0b01010000001111111111111111 = .ok (.getRom 0x40FFFF) ∧
    decode .location 0b10000000000010000000000000 = .ok (.getSram 0x002000) :=
  ⟨rfl, rfl, rfl⟩

/-- R71, I15: the words no rule covers are refused by name. -/
theorem test_decode_refuses :
    decode .decodeWord 0x0810000 = .error .noRow ∧ decode .decodeWord 0x1FF0000 = .error .noRow ∧
    decode .location 0x3000000 = .error .noRow ∧ decode .location 0x0000001 = .error .badOperand ∧
    decode .snapshot 0x8000000 = .error .excessBits ∧ decode .rawAddress 0x1000000 = .error .excessBits :=
  ⟨rfl, rfl, rfl, rfl, rfl, rfl⟩

/-- 95_test_vectors.md L1.1 and L1.2: the encoder's words. -/
theorem test_encode :
    encode (.activeRead 0x008000) = 0x5008000 ∧ encode (.loRom707FHi 0x7FFFFF) = 0x07FFFFF ∧
    encode (.hiSram203F 0x207FFF) = 0x1207FFF ∧ encode (.getRom 0x08FFFF) = 0x108FFFF ∧
    encode (.idle false true 0x700000) = 0x2700000 :=
  ⟨rfl, rfl, rfl, rfl, rfl⟩

/-! ## The decoder -/

/-- 95_test_vectors.md 2.2. -/
theorem test_fold :
    fold 0x7FFFFF = (0x7FFFFF, 0x7F) ∧ fold 0x80FFFF = (0x80FFFF, 0x80) ∧ fold 0x810000 = (0x010000, 0x01) ∧
    fold 0xC00000 = (0x400000, 0x40) ∧ fold 0xFFFFFF = (0x7FFFFF, 0x7F) := by decide

/-- 95_test_vectors.md 2.3. -/
theorem test_cart :
    cart 0x008000 = 0x00000 ∧ cart 0x010000 = 0x08000 ∧ cart 0x0F1234 = 0x09234 ∧ cart 0x101234 = 0x81234 ∧
    cart 0x7FFFFF = 0x8FFFF ∧ cart 0x808123 = 0x00123 ∧ cart 0xEEFFFF = 0x07FFF := by decide

/-- 95_test_vectors.md 2.4, LoROM under the three policies. -/
theorem test_decodeLo :
    [0x000000, 0x00FFFF, 0x0F1234, 0x3F7FFF, 0x400000, 0x5FFFFF, 0x6FFFFF, 0x707FFF, 0x808123, 0xFF8000].map
      (decodeAddress .loROM .incMirrorOnly .zero)
      = [.rom 0x8000, .rom 0x7FFF, .rom 0x81234, .rom 0x7FFF, .rom 0x0, .rom 0x8FFFF, .rom 0xFFFF, .sram 0, .rom 0x123,
         .rom 0x88000] ∧
    [0x0F1234, 0x3F7FFF, 0x400000].map (decodeAddress .loROM .noEffect .zero)
      = [.rom 0x9234, .rom 0x8FFFF, .rom 0x0] ∧
    [0x0F1234, 0x400000, 0x5FFFFF, 0x6FFFFF].map (decodeAddress .loROM .incWholeBranch .zero)
      = [.rom 0x81234, .rom 0x8000, .rom 0x7FFF, .rom 0x87FFF] := by decide

/-- 95_test_vectors.md 2.4, HiROM. -/
theorem test_decodeHi :
    [0x1FFFFF, 0x200000, 0x208000, 0x3F7FFF, 0x400000, 0x7FFFFF, 0x800000, 0x80FFFF, 0x810000, 0xA00000, 0xFF8000].map
      (decodeAddress .hiROM .incMirrorOnly .zero)
      = [.rom 0x1FFFFF, .sram 0, .rom 0x208000, .sram 0, .rom 0x0, .rom 0x3FFFFF, .rom 0x400000, .rom 0x40FFFF,
         .rom 0x10000, .sram 0, .rom 0x3F8000] := by decide

/-- The example policy of 95_test_vectors.md 2.4, LIN(mode, A') = A'[14:0]. -/
def lin : OffsetFormula := .band .addr (.lit 0x7FFF)

/-- 95_test_vectors.md 2.4: LIN at 0x701234 and 0x2003FF. -/
theorem test_linPolicy :
    decodeAddress .loROM .incMirrorOnly lin 0x701234 = .sram 0x1234 ∧
    decodeAddress .hiROM .incMirrorOnly lin 0x2003FF = .sram 0x3FF := by decide

/-! ## Sampling -/

/-- 95_test_vectors.md 2.1, polarity (R81): CS and RD low, WR high. -/
theorem test_polarity :
    atomicWord true ⟨0x008000, false, true, false⟩ = 0x5008000 ∧
    atomicWord false ⟨0x008000, false, true, false⟩ = 0x2008000 := by decide

/-- 95_test_vectors.md 2.1, line mapping (R82): lines 15 and 23, line 0. -/
theorem test_lineMapping :
    assembleBits (fun n => n == 15 || n == 23) 24 = 0x808000 ∧ assembleBits (fun n => n == 0) 24 = 0x000001 := by decide

/-- 95_test_vectors.md 2.1, SEQUENTIAL skew: bit 16 is read after the bus moved from 0x00FFFF to 0x010000, the others before. -/
theorem test_skew :
    (sequentialWord false ⟨[⟨0x010000, true, false, true⟩], 0, List.replicate 16 0 ++ [1], 1, false⟩
      ⟨0x00FFFF, true, false, true⟩).extractLsb' 0 24 = (0x01FFFF : Addr) := by decide

/-- 95_test_vectors.md 2.1, SEQUENTIAL strobe: RD is asserted only after the address was read. -/
theorem test_lateStrobe :
    sequentialWord false ⟨[⟨0x00FFFF, true, false, true⟩], 0, [], 1, false⟩ ⟨0x008000, false, false, true⟩ = 0x5008000 := by
  decide

/-! ## Operations on a small session -/

/-- The fixture of 95_test_vectors.md 2.6, with those bytes of ROMX that the tests read. -/
def lo : State :=
  { State.reset with
    rom := [(0x1234, 0x26), (0x7FFF, 0x80), (0x8000, 0x80), (0x7FFFF, 0x07)]
    romSize := 0x80000
    sramSizeClass := 3
    sram := [(0, 0x5A), (0x1FFF, 0xC3)] }

/-- The same session in another mode. -/
def inMode (m : Mode) : State := { lo with mode := m }

/-- A session with the byte ROMX[0x8000] pending. -/
def pending : State := { lo with phase := .sendPending, active := true, snap := 0x5000000, loc := .rom 0x8000, pendingByte := 0x80 }

/-- What a test looks at after a step. -/
def seen {α : Type} (f : State → α) : Host.Outcome State Fault Refusal → Option α
  | .next t => some (f t)
  | _ => none

/-- The loop's columns of 95_test_vectors.md 2.7: ACTIVE, LOC, outcome code, PHASE, PENDING_BYTE, SENT. -/
structure Columns where
  active : Bool
  loc : Location
  code : Option Nat
  phase : Phase
  pendingByte : Byte
  sent : List Byte
deriving DecidableEq, Repr

def row (t : State) : Columns := ⟨t.active, t.loc, t.outcome.map Label.code, t.phase, t.pendingByte, t.sent⟩

/-- 95_test_vectors.md 2.7: RD with CS deasserted gives IDLE. -/
theorem test_idle : seen row (exec (.idle true false 0x008000) lo) = some ⟨false, .unmapped, some 0, .sample, 0, []⟩ := by
  decide

/-- 95_test_vectors.md 2.7. -/
theorem test_activeNone : seen row (exec (.activeNone 0x008000) lo) = some ⟨true, .rom 0, some 1, .sample, 0, []⟩ := by
  decide

/-- 95_test_vectors.md P3: NO_READ, not UNSUPPORTED_MODE. -/
theorem test_activeNone_ex :
    seen row (exec (.activeNone 0x008000) (inMode .exHiROM)) = some ⟨true, .unmapped, some 1, .sample, 0, []⟩ := by decide

/-- 95_test_vectors.md P1 step 11: ROMX[0x8000]. -/
theorem test_activeRead :
    seen row (exec (.activeRead 0x000000) lo) = some ⟨true, .rom 0x8000, some 3, .sendPending, 0x80, []⟩ := by decide

/-- 95_test_vectors.md 2.7: 0x7FFFFF is out of range. -/
theorem test_activeRead_outOfRange :
    seen row (exec (.activeRead 0x7FFFFF) lo) = some ⟨true, .rom 0x8FFFF, some 5, .sample, 0, []⟩ := by decide

/-- 95_test_vectors.md 2.7: a write is ignored. -/
theorem test_activeWrite :
    seen row (exec (.activeWrite 0x700000) lo) = some ⟨true, .sram 0, some 2, .sample, 0, []⟩ := by decide

/-- 95_test_vectors.md 2.7 with the save byte of 2.6: both strobes read. -/
theorem test_activeReadWrite :
    seen row (exec (.activeReadWrite 0x700000) lo) = some ⟨true, .sram 0, some 3, .sendPending, 0x5A, []⟩ := by decide

/-- 95_test_vectors.md 2.7: the same read in an extended mode. -/
theorem test_activeReadWrite_ex :
    seen row (exec (.activeReadWrite 0x008000) (inMode .exLoROM)) = some ⟨true, .unmapped, some 6, .sample, 0, []⟩ := by
  decide

/-- R148, R150: no iteration outside PHASE = SAMPLE. -/
theorem test_noIteration :
    exec (.activeRead 0x008000) pending = .fault .sendBlocked ∧
    exec (.idle false false 0) { lo with phase := .failed } = .fault .sessionFailed ∧
    exec (.activeNone 0) { lo with phase := .stopped } = .fault .sessionStopped := ⟨rfl, rfl, rfl⟩

/-- 95_test_vectors.md 2.2, row by row. -/
theorem test_fold_rows :
    [Instr.nofold80 0x80FFFF, .fold81 0x818000, .fold8283 0x830000, .fold8487 0x870000, .fold888F 0x8F0000,
     .fold909F 0x9F7FFF, .foldA0BF 0xBF8000, .foldC0FF 0xFFFFFF, .nofoldLow 0x7FFFFF].map
      (fun i => seen State.result (exec i lo))
      = [some (.folded 0x80FFFF 0x80), some (.folded 0x018000 0x01), some (.folded 0x030000 0x03),
         some (.folded 0x070000 0x07), some (.folded 0x0F0000 0x0F), some (.folded 0x1F7FFF 0x1F),
         some (.folded 0x3F8000 0x3F), some (.folded 0x7FFFFF 0x7F), some (.folded 0x7FFFFF 0x7F)] := by decide

/-- 95_test_vectors.md 2.4 and 2.5, LoROM rows. -/
theorem test_lo_rows :
    [Instr.loRom003FHi 0x3F8000, .loMirror003FLo 0x0F1234, .loRom405F 0x410000, .loRom606F 0x6FFFFF, .loSram707F 0x707FFF,
     .loRom707FHi 0x7FFFFF, .loSram80 0x807FFF, .loRom80Hi 0x808123].map (fun i => seen State.loc (exec i lo))
      = [some (.rom 0x88000), some (.rom 0x81234), some (.rom 0x8000), some (.rom 0xFFFF), some (.sram 0),
         some (.rom 0x8FFFF), some (.sram 0), some (.rom 0x123)] := by decide

/-- 95_test_vectors.md 2.4, the rows that read LOROM_MIRROR_POLICY. -/
theorem test_lo_rows_policy :
    [Instr.loMirror003FLo 0x3F7FFF, .loRom405F 0x5FFFFF, .loRom606F 0x6FFFFF].map
      (fun i => (seen State.loc (exec i { lo with mirrorPolicy := .noEffect }),
        seen State.loc (exec i { lo with mirrorPolicy := .incWholeBranch })))
      = [(some (.rom 0x8FFFF), some (.rom 0x7FFF)), (some (.rom 0x8FFFF), some (.rom 0x7FFF)),
         (some (.rom 0xFFFF), some (.rom 0x87FFF))] := by decide

/-- 95_test_vectors.md 2.4 and 2.5, HiROM and extended rows. -/
theorem test_hi_rows :
    [Instr.hiRom001F 0x1FFFFF, .hiSram203F 0x207FFF, .hiRom203FHi 0x3F8000, .hiRom407F 0x7FFFFF, .hiRom80 0x80FFFF].map
      (fun i => seen State.loc (exec i (inMode .hiROM)))
      = [some (.rom 0x1FFFFF), some (.sram 0), some (.rom 0x3F8000), some (.rom 0x3FFFFF), some (.rom 0x40FFFF)] ∧
    seen State.loc (exec (.exLoUnmapped 0x7FFFFF) { inMode .exLoROM with loc := .rom 1 }) = some .unmapped ∧
    seen State.loc (exec (.exHiUnmapped 0x008000) { inMode .exHiROM with loc := .rom 1 }) = some .unmapped := by decide

/-- 95_test_vectors.md 2.4: the SRAM rows under LIN. -/
theorem test_sram_rows_policy :
    seen State.loc (exec (.loSram707F 0x701234) { lo with sramPolicy := lin }) = some (.sram 0x1234) ∧
    seen State.loc (exec (.loSram80 0x801234) { lo with sramPolicy := lin }) = some (.sram 0x1234) ∧
    seen State.loc (exec (.hiSram203F 0x2003FF) { inMode .hiROM with sramPolicy := lin }) = some (.sram 0x3FF) := by decide

/-- 95_test_vectors.md 2.6. -/
theorem test_mux_rows :
    [Instr.getRom 0x7FFF, .getRom 0x7FFFF, .getRom 0x80000, .getSram 0x0, .getSram 0x1FFF, .getSram 0x2000,
     .getUnmapped 0].map (fun i => seen State.result (exec i lo))
      = [some (.byte (some 0x80)), some (.byte (some 0x07)), some (.byte none), some (.byte (some 0x5A)),
         some (.byte (some 0xC3)), some (.byte none), some (.byte none)] := by decide

/-! ## Steps -/

/-- 95_test_vectors.md P1 steps 11 and 12, as a step each. -/
theorem test_step_read :
    seen row (step { lo with bus := linesFor false 0x5000000, schedule := [.loop (Window.still false), .accept] })
      = some ⟨true, .rom 0x8000, some 3, .sendPending, 0x80, []⟩ ∧
    seen row (step { pending with schedule := [.accept] }) = some ⟨true, .rom 0x8000, some 7, .sample, 0x80, [0x80]⟩ := by
  decide

/-- 95_test_vectors.md 2.7, FAIL: both outcomes are admitted. -/
theorem test_step_fail :
    seen row (step { pending with schedule := [.fail false] }) = some ⟨true, .rom 0x8000, some 8, .failed, 0x80, []⟩ ∧
    seen row (step { pending with schedule := [.fail true] }) = some ⟨true, .rom 0x8000, some 8, .failed, 0x80, [0x80]⟩ := by
  decide

/-- 95_test_vectors.md 2.7, STOP in both phases. -/
theorem test_step_stop :
    seen row (step { pending with schedule := [.stop false] }) = some ⟨true, .rom 0x8000, some 9, .stopped, 0x80, []⟩ ∧
    seen row (step { pending with schedule := [.stop true] }) = some ⟨true, .rom 0x8000, some 9, .stopped, 0x80, [0x80]⟩ ∧
    seen row (step { lo with schedule := [.stop true] }) = some ⟨false, .unmapped, some 9, .stopped, 0, []⟩ := by decide

/-- R73: a script that accepts with nothing pending is ill-formed. -/
theorem test_step_illFormedScript : step { lo with schedule := [.accept] } = .refused .noSendPending := rfl

/-- The state after reset polls a deselected bus (R140, R141; log 22). -/
theorem test_step_reset : seen row (step State.reset) = some ⟨false, .unmapped, some 0, .sample, 0, []⟩ := by decide

/-- R84: a decode on a bus that changes while it is sampled, from State, in SEQUENTIAL mode. -/
theorem test_step_sequential :
    seen row (step { lo with
      sampleMode := .sequential
      bus := ⟨0x000000, false, false, true⟩
      schedule := [.loop ⟨[⟨0x00FFFF, true, false, true⟩], 0, [], 1, false⟩] })
      = some ⟨true, .rom 0x8000, some 3, .sendPending, 0x80, []⟩ := by decide

/-- The host's way in: a bare word is the row's operation and the next step runs it (log 14, 22). -/
theorem test_tableWords :
    decodeTableWord 27 0x5008000 = some (.activeRead 0x008000) ∧ decodeTableWord 24 0x818000 = some (.fold81 0x818000) ∧
    decodeTableWord 26 0x1207FFF = some (.hiSram203F 0x207FFF) ∧ decodeTableWord 26 0x3000000 = some (.exHiUnmapped 0) ∧
    decodeTableWord 32 0x1810000 = some (.getRom 0x810000) :=
  ⟨rfl, rfl, rfl, rfl, rfl⟩

theorem test_fetch_bus_region :
    seen row (step (State.reset.withFetchWord 27 0x5008000)) = some ⟨true, .rom 0, some 5, .sample, 0, []⟩ ∧
    seen State.loc (step (State.reset.withFetchWord 26 0x11FFFFF)) = some (.rom 0x1FFFFF) := by decide

theorem test_fetch_fold_mux :
    seen State.result (step (State.reset.withFetchWord 24 0x818000)) = some (.folded 0x018000 0x01) ∧
    seen State.result (step (lo.withFetchWord 26 0x1FFFFFF)) = some (.byte none) := by decide

/-- A launch with a three-byte ROM file and no save. -/
def config : LaunchArgs where
  romFile := some [0x4C, 0x00, 0x80]
  smcHeader := false
  save := none
  sramSizeClass := some 0
  mode := some .loROM
  mirrorPolicy := some .incMirrorOnly
  sramPolicy := some .zero
  sampleMode := some .atomic
  ctrlActiveLow := some false
  bus := ⟨0, false, false, false⟩
  schedule := []

/-- The same with no policy supplied. -/
def defaults : LaunchArgs := { config with mirrorPolicy := none, sramPolicy := none, sampleMode := none }

/-- R6, R33: the defaults are INC_MIRROR_ONLY, ZERO and ATOMIC. -/
theorem test_launch_defaults :
    seen (fun s => (s.mirrorPolicy, s.sramPolicy, s.sampleMode)) (launch defaults)
      = some (.incMirrorOnly, .lit 0, .atomic) := rfl

/-- R192: no save gives zero SRAM; a save of the wrong length and a missing configuration are refused (I13, I14). -/
theorem test_launch :
    seen (fun s => (s.rom, s.romSize, s.sramByte 0x3FF, s.sramByte 0x400)) (launch config)
      = some ([(0, 0x4C), (2, 0x80)], 3, some 0x00, none) ∧
    launch { config with save := some [0x01] } = .refused .saveLengthMismatch ∧
    launch { config with mode := none } = .refused .incompleteConfiguration := ⟨by decide, rfl, rfl⟩

/-- R73's WRITE runs as ACTIVE_WRITE in either sampling mode (log 26). -/
theorem test_script_write :
    ∀ m ∈ [SampleMode.atomic, .sequential],
      seen State.outcome (step { lo with sampleMode := m, bus := linesFor false 0x6700000, schedule := [.loop (Window.still true)] })
        = some (some (.writeIgnored 0x700000)) ∧
      seen State.outcome (step { lo with sampleMode := m, bus := linesFor false 0x6700000 })
        = some (some (.writeIgnored 0x700000)) := by decide

/-! ## Witnesses: a concrete input for every hypothesis of a statement, at its bounds -/

theorem witness_EveryFoldedAddressHasOneRegion :
    Reading.bank (0x80FFFF : Addr).toNat ≤ 0x80 ∧ Reading.bank (0x000000 : Addr).toNat ≤ 0x80 := by decide

theorem witness_UnreachableWordsAreRefused :
    Reading.bank (0x810000 : Addr).toNat > 0x80 ∧ Reading.bank (0xFFFFFF : Addr).toNat > 0x80 ∧ (0x000001 : Addr) ≠ 0 ∧
    2 ^ Format.snapshot.width ≤ 0x8000000 ∧ 2 ^ Format.location.width ≤ 0x4000000 := by decide

theorem witness_DecodeOfEncodeIsTheOperation :
    [Instr.idle true true 0xFFFFFF, .fold81 0x81FFFF, .loSram80 0x807FFF, .hiRom80 0x80FFFF, .exLoUnmapped 0xFFFFFF,
     .getUnmapped 0, .getSram 0xFFFFFF].all Instr.wellFormed = true := by decide

theorem witness_EncodeOfDecodeIsTheWord :
    decode .decodeWord 0x180FFFF = .ok (.hiRom80 0x80FFFF) ∧ decode .location 0x2FFFFFF = .ok (.getSram 0xFFFFFF) :=
  ⟨rfl, rfl⟩

theorem witness_AtomicSampleIsOneBusState : lo.sampleMode = .atomic := rfl

theorem witness_SequentialSampleReadsLinesInOrder : ({ lo with sampleMode := .sequential } : State).sampleMode = .sequential := rfl

theorem witness_EverySequentialReadingIsAdmitted :
    ({ lo with sampleMode := .sequential } : State).sampleMode = .sequential ∧
    (∀ n, n < 24 → 0 ≤ (if n = 16 then 1 else 0) ∧ (if n = 16 then 1 else 0) ≤ 1) ∧ 0 ≤ 1 := by decide

theorem witness_StillBusSamplesAlike : (Window.still false).later = [] ∧ 24 ≠ 25 ∧ 26 ≠ 25 := by decide

theorem witness_FoldTakesBanksAbove80 :
    Reading.bank (0x810000 : Addr).toNat > 0x80 ∧ Reading.bank (0xFFFFFF : Addr).toNat > 0x80 ∧
    Reading.bank (0x800000 : Addr).toNat = 0x80 ∧ Reading.bank (0x80FFFF : Addr).toNat = 0x80 := by decide

theorem witness_FoldClassesReturnTheFoldedPair :
    [Instr.nofold80 0x800000, .nofold80 0x80FFFF, .fold81 0x810000, .fold8283 0x83FFFF, .fold8487 0x84FFFF,
     .fold888F 0x8F0000, .fold909F 0x900000, .foldA0BF 0xBFFFFF, .foldC0FF 0xFFFFFF, .nofoldLow 0x7FFFFF].all
      Instr.wellFormed = true := by decide

/-- 95_test_vectors.md 2.3: 0x0E0000 and 0x000000 agree on the bits Cart reads. -/
theorem witness_CartIgnoresTheOtherBits :
    (0x0E0000 : Addr).getLsbD 20 = (0x000000 : Addr).getLsbD 20 ∧ (0x0E0000 : Addr).getLsbD 16 = (0x000000 : Addr).getLsbD 16 ∧
    (0x0E0000 : Addr).extractLsb' 0 15 = (0x000000 : Addr).extractLsb' 0 15 := by decide

theorem witness_LoRomUpperRowsMapByCart :
    [Instr.loRom003FHi 0x008000, .loRom003FHi 0x3FFFFF, .loRom707FHi 0x708000, .loRom707FHi 0x7FFFFF, .loRom80Hi 0x808000,
     .loRom80Hi 0x80FFFF].all Instr.wellFormed = true := by decide

theorem witness_LoRomLowerRowsFollowTheMirrorPolicy :
    [Instr.loMirror003FLo 0x000000, .loMirror003FLo 0x3F7FFF, .loRom405F 0x400000, .loRom405F 0x5FFFFF,
     .loRom606F 0x600000, .loRom606F 0x6FFFFF].all Instr.wellFormed = true := by decide

theorem witness_SramRowsFollowTheOffsetPolicy : lo.sramPolicy = .zero := rfl

theorem witness_EveryOffsetPolicyIsHeld : ({ lo with sramPolicy := lin } : State).sramPolicy = lin := rfl

theorem witness_HiRomRowsMapTheFoldedAddress :
    [Instr.hiRom001F 0x000000, .hiRom001F 0x1FFFFF, .hiRom203FHi 0x208000, .hiRom203FHi 0x3FFFFF, .hiRom407F 0x400000,
     .hiRom407F 0x7FFFFF, .hiRom80 0x800000, .hiRom80 0x80FFFF].all Instr.wellFormed = true := by decide

theorem witness_RomOffsetsStayInTheModesRange :
    decodeAddress .loROM .noEffect .zero 0x3F7FFF = .rom 0x8FFFF ∧
    decodeAddress .hiROM .noEffect .zero 0x80FFFF = .rom 0x40FFFF := by decide

/-- An answered address and an unanswered one of an implemented mode. -/
theorem witness_UnmappedExactlyInExtendedModes :
    lo.mode = .loROM ∧ lo.get (lo.decoded 0x7FFFFF) = none ∧ (inMode .hiROM).mode = .hiROM ∧
    (inMode .hiROM).get ((inMode .hiROM).decoded 0x207FFF) = some 0x5A := by decide

theorem witness_FoldLaw :
    Reading.bank (0x810000 : Addr).toNat > 0x80 ∧ Reading.bank (0xFFFFFF : Addr).toNat > 0x80 := by decide

theorem witness_LowBankMirrorLaw : (0x000000 : Addr).toNat ≤ 0x7FFF ∧ (0x007FFF : Addr).toNat ≤ 0x7FFF := by decide

/-- Two sessions that differ in their images, LOC and SNAP run a read and a region row; two that agree on LOC run a fold class. -/
theorem witness_LocationDependsOnModeAndPoliciesAlone :
    let other : State := { lo with romSize := 0, rom := [], snap := 1, loc := .sram 7 }
    (other.mode = lo.mode ∧ other.mirrorPolicy = lo.mirrorPolicy ∧ other.sramPolicy = lo.sramPolicy ∧ other.loc ≠ lo.loc) ∧
    (∃ s' t', exec (.activeRead 0x008000) lo = .next s' ∧ exec (.activeRead 0x008000) other = .next t') ∧
    (∃ s' t', exec (.loRom80Hi 0x808000) lo = .next s' ∧ exec (.loRom80Hi 0x808000) other = .next t') ∧
    ∃ s' t', exec (.fold81 0x818000) lo = .next s' ∧ exec (.fold81 0x818000) { other with loc := lo.loc } = .next t' :=
  ⟨by decide, ⟨_, _, rfl, rfl⟩, ⟨_, _, rfl, rfl⟩, _, _, rfl, rfl⟩

/-- 95_test_vectors.md 2.8: 0x008000, 0xC00000 and 0x808000, one for each region that Cart maps; the last HiROM bank of each half;
and an SRAM-region address of each mode at its lowest and highest folded bank. -/
theorem witness_AliasedAddressesShareALocation :
    ((Reading.fold 0x008000).2 < 0x40 ∧ 0x8000 ≤ Reading.offset (Reading.fold 0x008000).1) ∧
    (0x40 ≤ (Reading.fold 0xC00000).2 ∧ (Reading.fold 0xC00000).2 < 0x70 ∧ MirrorPolicy.incMirrorOnly ≠ .incWholeBranch) ∧
    (0x70 ≤ (Reading.fold 0x808000).2 ∧ 0x8000 ≤ Reading.offset (Reading.fold 0x808000).1) ∧
    (∀ x ∈ [0xC00000, 0x808000], (Reading.fold x).1.testBit 20 = (Reading.fold 0x008000).1.testBit 20 ∧
      (Reading.fold x).1.testBit 16 = (Reading.fold 0x008000).1.testBit 16 ∧
      (Reading.fold x).1 % 0x8000 = (Reading.fold 0x008000).1 % 0x8000) ∧
    ((Reading.fold 0xDF1234).2 = 0x40 + 0x1F ∧ (Reading.fold 0x9F1234).2 = 0x1F ∧
      Reading.offset (Reading.fold 0xDF1234).1 = Reading.offset (Reading.fold 0x9F1234).1) ∧
    (∀ x ∈ [0x700000, 0x807FFF], 0x70 ≤ (Reading.fold x).2 ∧ Reading.offset (Reading.fold x).1 < 0x8000) ∧
    ∀ x ∈ [0x200000, 0xBF7FFF],
      0x20 ≤ (Reading.fold x).2 ∧ (Reading.fold x).2 < 0x40 ∧ Reading.offset (Reading.fold x).1 < 0x8000 := by
  decide

theorem witness_IdleIterationDoesNothing : State.reset.phase = .sample := rfl

theorem witness_UnreadIterationsOnlyDecode : (inMode .exHiROM).phase = .sample := rfl

/-- A byte found, an offset out of range, and an extended mode. -/
theorem witness_ReadIterationsIssueTheFoundByte :
    lo.phase = .sample ∧ lo.get (lo.decoded 0x000000) = some 0x80 ∧ lo.get (lo.decoded 0x7FFFFF) = none ∧
    (inMode .exLoROM).decoded 0x008000 = .unmapped := by decide

theorem witness_OutcomeFollowsTheOrderOfTests :
    lo.phase = .sample ∧ decode .snapshot (0x5008000 : SnapshotWord).toNat = .ok (.activeRead 0x008000) ∧
    decode .snapshot (0x1008000 : SnapshotWord).toNat = .ok (.idle true false 0x008000) := ⟨rfl, rfl, rfl⟩

theorem witness_LoopIteratesOnlyInSample :
    (Instr.activeWrite 0x700000).format = .snapshot ∧ lo.phase = .sample ∧ pending.phase = .sendPending ∧
    ({ lo with phase := .failed } : State).phase = .failed ∧ ({ lo with phase := .stopped } : State).phase = .stopped :=
  ⟨rfl, rfl, rfl, rfl, rfl⟩

theorem witness_AcceptAppendsThePendingByte :
    ({ pending with schedule := [.accept] } : State).schedule = .accept :: [] ∧ pending.phase = .sendPending := ⟨rfl, rfl⟩

theorem witness_FailedSendEndsTheSession :
    pending.phase = .sendPending ∧ ({ pending with schedule := [.fail false] } : State).schedule = .fail false :: [] ∧
    ({ pending with schedule := [.fail true] } : State).schedule = .fail true :: [] ∧
    ∃ t u, step { pending with schedule := [.fail true, .console ⟨0, true, true, true⟩] } = .next t ∧ step t = .next u :=
  ⟨rfl, rfl, rfl, _, _, rfl, rfl⟩

theorem witness_HostStopEndsTheSession :
    ({ pending with schedule := [.stop true] } : State).schedule = .stop true :: [] ∧ pending.phase = .sendPending ∧
    lo.phase = .sample ∧
    (∃ t u, step { pending with schedule := [.stop true, .console ⟨0, true, true, true⟩] } = .next t ∧ step t = .next u) ∧
    ∃ t u, step { lo with schedule := [] } = .next t ∧
      step { lo with schedule := [.loop (Window.still false)], bus := linesFor false 0x5000000 } = .next u ∧ u.phase = .sendPending :=
  ⟨rfl, rfl, rfl, ⟨_, _, rfl, rfl⟩, _, _, rfl, rfl, rfl⟩

theorem witness_OnlyTheConsoleStepsAfterTheEnd :
    ∃ t, step { lo with phase := .failed, schedule := [.console ⟨0x008000, true, false, true⟩] } = .next t := ⟨_, rfl⟩

/-- One next state for each clause: the console, an accept, a failure and a stop. -/
theorem witness_PendingSendBlocksTheLoop :
    pending.phase = .sendPending ∧
    ∀ e ∈ [Event.console ⟨0, true, true, true⟩, .accept, .fail true, .stop false],
      ∃ t, step { pending with schedule := [e] } = .next t := by
  refine ⟨rfl, ?_⟩
  simp only [List.forall_mem_cons, List.not_mem_nil, false_implies, implies_true, and_true]
  exact ⟨⟨_, rfl⟩, ⟨_, rfl⟩, ⟨_, rfl⟩, ⟨_, rfl⟩⟩

/-- The next word of a bus held at 0x5008000, and of each unit call. -/
theorem witness_StepRunsTheDecodedOperation :
    decode .snapshot (sampleWord { lo with bus := linesFor false 0x5008000 } (Window.still false)).toNat = .ok (.activeRead 0x008000) ∧
    decode .rawAddress (0x810000 : Addr).toNat = .ok (.fold81 0x810000) ∧
    decode .decodeWord (regionWord lo.mode 0x80FFFF).toNat = .ok (.loRom80Hi 0x80FFFF) ∧
    decode .location (0x2000000 : SelectWord).toNat = .ok (.getSram 0) ∧ lo.phase = .sample := ⟨rfl, rfl, rfl, rfl, rfl⟩

theorem witness_PlacedWordRunsNext : decodeTableWord 27 0x7FFFFFF = some (.activeReadWrite 0xFFFFFF) := rfl

/-- A read with a byte in one session, before and after another latch value. -/
theorem witness_IterationsAreIdempotent :
    SameSession lo { lo with snap := 1, active := true, pendingByte := 0x11 } ∧
    (Instr.activeRead 0x000000).format = .snapshot ∧
    ∃ s' t', exec (.activeRead 0x000000) lo = .next s' ∧
      exec (.activeRead 0x000000) { lo with snap := 1, active := true, pendingByte := 0x11 } = .next t' ∧
      s'.phase = .sendPending :=
  ⟨⟨rfl, rfl, rfl, rfl, rfl, rfl, rfl, rfl, rfl⟩, rfl, _, _, rfl, rfl, rfl⟩

/-- 95_test_vectors.md L1.8: three sends. -/
theorem witness_HeldReadRepeatsTheSend :
    sampleWord { lo with bus := linesFor false 0x5000000 } (Window.still false) = snapshotWord true false true 0x000000 ∧
    lo.phase = .sample ∧ lo.get (lo.decoded 0x000000) = some 0x80 ∧
    ({ lo with schedule := (List.replicate 3 [Event.loop (Window.still false), Event.accept]).flatten } : State).schedule
      = (List.replicate 3 [Event.loop (Window.still false), Event.accept]).flatten := by decide

/-- 95_test_vectors.md L1.6, active-low lines: RD asserted and RD deasserted. -/
theorem witness_ReadOf008000SendsTheFirstRomByte :
    lo.mode = .loROM ∧ lo.romSize = 0x80000 ∧ lo.sampleMode = .atomic ∧ lo.phase = .sample ∧
    ((⟨0x008000, false, true, false⟩ : Lines).cs != true) = true ∧
    ((⟨0x008000, false, true, false⟩ : Lines).rd != true) = true ∧
    ((⟨0x008000, true, true, false⟩ : Lines).rd != true) = false := by decide

theorem witness_StepKeepsTheSession : ∃ t, step { pending with schedule := [.fail true] } = .next t := ⟨_, rfl⟩

theorem witness_SentGrowsByThePendingByteOnly :
    ∃ t, step { pending with schedule := [.accept] } = .next t ∧ t.sent = [0x80] := ⟨_, rfl, rfl⟩

theorem witness_safe : Safe { pending with schedule := [.accept] } where
  images := by decide
  send := fun _ => by decide
  loc := .inl ⟨rfl, by decide⟩
  active := show true = (0x5000000 : SnapshotWord).getLsbD 26 by decide

theorem witness_StepKeepsSafe :
    Safe { pending with schedule := [.accept] } ∧ ∃ t, step { pending with schedule := [.accept] } = .next t :=
  ⟨witness_safe, _, rfl⟩

/-- A safe state whose step sends the ROM byte at LOC. -/
theorem witness_SafeStepsSendImageBytesOnly :
    Safe { pending with schedule := [.accept] } ∧
    ∃ t, step { pending with schedule := [.accept] } = .next t ∧ t.sent ≠ pending.sent :=
  ⟨witness_safe, _, rfl, by decide⟩

theorem witness_EverySessionStartsSafe : ∃ s, launch config = .next s := ⟨_, rfl⟩

theorem witness_BusClassFrame :
    ∃ t u, exec (.idle true true 0xFFFFFF) lo = .next t ∧ exec (.activeRead 0x7FFFFF) lo = .next u ∧
      lo.get (lo.decoded 0x7FFFFF) = none := ⟨_, _, rfl, rfl, by decide⟩

theorem witness_FoldAndMuxFrame :
    (Instr.foldC0FF 0xFFFFFF).format = .rawAddress ∧ (Instr.getSram 0x1FFF).format = .location ∧
    ∃ t u, exec (.foldC0FF 0xFFFFFF) lo = .next t ∧ exec (.getSram 0x1FFF) lo = .next u := ⟨rfl, rfl, _, _, rfl, rfl⟩

theorem witness_RegionFrame :
    (Instr.loSram80 0x800000).format = .decodeWord ∧ ∃ t, exec (.loSram80 0x800000) lo = .next t := ⟨rfl, _, rfl⟩

/-- A complete configuration, one that takes every default, and a save of exactly SRAM_SIZE bytes. -/
theorem witness_LaunchStartsTheSession :
    config.romFile = some [0x4C, 0x00, 0x80] ∧ config.sramSizeClass = some 0 ∧ config.mode = some .loROM ∧
    config.ctrlActiveLow = some false ∧ config.save = none ∧
    (defaults.mirrorPolicy = none ∧ defaults.sramPolicy = none ∧ defaults.sampleMode = none) ∧
    ∀ save, ({ config with save := some (List.replicate 0x400 0x11) } : LaunchArgs).save = some save →
      save.length = 0x400 * 2 ^ (0 : Byte).toNat := by
  refine ⟨rfl, rfl, rfl, rfl, rfl, ⟨rfl, rfl, rfl⟩, fun save h => ?_⟩
  injection h with h
  rw [← h, List.length_replicate]; rfl

/-- One launch for each clause. -/
theorem witness_LaunchRefusesBrokenPremises :
    ({ config with mode := none } : LaunchArgs).mode = none ∧
    ({ config with save := some [0x01] } : LaunchArgs).save = some [0x01] ∧
    ([0x01] : List Byte).length ≠ 0x400 * 2 ^ (0 : Byte).toNat ∧
    launch { config with ctrlActiveLow := none } = .refused .incompleteConfiguration ∧
    launch { defaults with save := some [0x01] } = .refused .saveLengthMismatch := ⟨rfl, rfl, by decide, rfl, rfl⟩

/-- A WRITE and a DESELECT, in an ATOMIC and in a SEQUENTIAL session. -/
theorem witness_ScriptCycleRunsItsWord :
    lo.phase = .sample ∧
    ({ lo with schedule := scriptWrite false 0x700000 ++ [.stop false] } : State).schedule
      = scriptCycle lo.ctrlActiveLow true false true 0x700000 ++ [.stop false] ∧
    ({ lo with sampleMode := .sequential, schedule := scriptDeselect false } : State).schedule
      = scriptCycle lo.ctrlActiveLow false false false 0 ++ [] := ⟨rfl, rfl, rfl⟩

end Sys2Proof.Tests
end

/-! The session through a step (spec/20_memory.md R45): which updates and moves keep the configuration and the images,
and what follows for the answer to an address. -/

namespace Sys2Proof.Machine

/-! What two states of one session agree on. -/

theorem SameSession.sameBytes {s t : State} (h : SameSession s t) : SameBytes s t :=
  ⟨fun k => State.get_congr h (.rom k), fun k => State.get_congr h (.sram k)⟩

theorem SameSession.decoded_eq {s t : State} (h : SameSession s t) (a : Addr) : t.decoded a = s.decoded a := by
  rw [State.decoded, State.decoded, h.mode, h.mirrorPolicy, h.sramPolicy]

/-- An address has the same answer throughout a session: it decodes to the same location, and the location holds the same byte. -/
theorem SameSession.get_decoded_eq {s t : State} (h : SameSession s t) (a : Addr) :
    t.get (t.decoded a) = s.get (s.decoded a) := by
  rw [h.decoded_eq a, State.get_congr h]

/-! The updates of the environment's moves. -/

theorem State.withBus_sameSession (s : State) (l : Lines) : SameSession s (s.withBus l) :=
  ⟨rfl, rfl, rfl, rfl, rfl, rfl, rfl, rfl, rfl⟩

theorem State.withSchedule_sameSession (s : State) (es : List Event) : SameSession s (s.withSchedule es) :=
  ⟨rfl, rfl, rfl, rfl, rfl, rfl, rfl, rfl, rfl⟩

theorem State.withSent_sameSession (s : State) (d : Byte) : SameSession s (s.withSent d) :=
  ⟨rfl, rfl, rfl, rfl, rfl, rfl, rfl, rfl, rfl⟩

/-- Every move of the transport and the host ends with a phase and a label. -/
theorem State.withPhase_withOutcome_sameSession (s : State) (p : Phase) (l : Label) :
    SameSession s ((s.withPhase p).withOutcome l) :=
  ⟨rfl, rfl, rfl, rfl, rfl, rfl, rfl, rfl, rfl⟩

/-- Whether or not the pending byte is delivered (log 9), the session stays. -/
theorem State.deliverIf_sameSession (s : State) (delivered : Bool) : SameSession s (s.deliverIf delivered) := by
  cases delivered with
  | false => exact .refl s
  | true => exact s.withSent_sameSession s.pendingByte

/-! The moves. -/

/-- No move of any agent changes the configuration or an image (R32, R45). -/
theorem runEvent_sameSession {e : Event} {s t : State} (h : runEvent e s = .next t) : SameSession s t := by
  rcases runEvent_cases h with ⟨l, -, rfl⟩ | ⟨w, i, -, -, hexec⟩ | ⟨-, -, rfl⟩ | ⟨b, -, -, rfl⟩ | ⟨b, -, -, rfl⟩ |
    ⟨f, w, i, -, -, hexec, -⟩
  · exact s.withBus_sameSession l
  · exact (s.withBus_sameSession _).trans (exec_sameSession hexec)
  · exact (s.withSent_sameSession _).trans (State.withPhase_withOutcome_sameSession _ _ _)
  · exact (s.deliverIf_sameSession b).trans (State.withPhase_withOutcome_sameSession _ _ _)
  · exact (s.deliverIf_sameSession _).trans (State.withPhase_withOutcome_sameSession _ _ _)
  · exact exec_sameSession hexec

/-- No step changes the configuration or an image (R32, R45). -/
theorem step_sameSession {s t : State} (h : step s = .next t) : SameSession s t := by
  rcases step_cases h with ⟨-, hpoll⟩ | ⟨e, rest, -, hmove⟩
  · exact runEvent_sameSession hpoll
  · exact (s.withSchedule_sameSession rest).trans (runEvent_sameSession hmove)

/-- Settles O48: a step keeps the session, and the bytes and the answer to an address depend on the session alone. -/
theorem stepKeepsTheSession : Obligations.StepKeepsTheSession := by
  intro s t h
  have hsession : SameSession s t := step_sameSession h
  exact ⟨hsession, hsession.sameBytes, hsession.get_decoded_eq⟩

end Sys2Proof.Machine

/-! Which rows cover a word, read from its fields (spec/30_encoding.md R67, R68). -/

namespace Sys2Proof

open Machine

@[simp] theorem operandOf_snapshotWord (cs wr rd : Bool) (a : Addr) : operandOf (snapshotWord cs wr rd a) = a :=
  snapshotWord_addr cs wr rd a

/-- A snapshot word is covered by the row at the place its CS, WR and RD bits name, and by no other. -/
theorem snapshotWord_of_place {cs wr rd : Bool} {a : Addr} {r : Row} {i : Instr}
    (hr : (rowsOf .snapshot)[busPlace cs wr rd]? = some r) (hi : r.build (snapshotWord cs wr rd a) = i)
    (hw : i.wellFormed = true) :
    (rows.filter (fun r => r.covers .snapshot (snapshotWord cs wr rd a))).length = 1 ∧
    decode .snapshot (snapshotWord cs wr rd a).toNat = .ok i := by
  have hp := fitPlaces_bus cs wr rd
  rw [← and_testedBits_bus _ a] at hp
  obtain ⟨hone, hdecode⟩ := decode_of_place (v := snapshotWord cs wr rd a) (snapshotWord cs wr rd a).isLt
    (BitVec.ofNat_toNat _ _) hp hr
  exact ⟨hone, hdecode.trans (by rw [hi, if_pos hw])⟩

/-- Settles O1, by the three control bits: with CS deasserted RD and WR are free, otherwise they pick the row. -/
theorem everySampleIsOneOperation : Obligations.EverySampleIsOneOperation := by
  intro w
  obtain ⟨cs, wr, rd, a, rfl⟩ : ∃ cs wr rd a, w = snapshotWord cs wr rd a :=
    ⟨_, _, _, _, (snapshotWord_fields w).symm⟩
  simp only [snapshotWord_cs, snapshotWord_wr, snapshotWord_rd, snapshotWord_addr]
  cases cs with
  | false =>
    exact snapshotWord_of_place rfl (by simp) rfl
  | true =>
    cases rd <;> cases wr <;> exact snapshotWord_of_place rfl (by simp) rfl

/-! The fold rows. -/

theorem bankIn_iff (a : Addr) (lo hi : Nat) :
    bankIn a lo hi = true ↔ lo ≤ Reading.bank a.toNat ∧ Reading.bank a.toNat ≤ hi := by
  rw [bankIn, bankNat_eq_bankOf, bankOf_toNat, Bool.and_eq_true, decide_eq_true_eq, decide_eq_true_eq, Reading.bank]

theorem bank_le (a : Addr) : Reading.bank a.toNat ≤ 0xFF := by
  have hlt := (bankOf a).isLt
  rw [bankOf_toNat] at hlt
  exact Nat.le_of_lt_succ hlt

/-- The place of a bank in `foldRows`, by the bank's number. -/
theorem foldPlace_bankOf (a : Addr) :
    foldPlace (bankOf a) =
      if Reading.bank a.toNat < 0x80 then 8
      else if Reading.bank a.toNat = 0x80 then 0
      else if Reading.bank a.toNat = 0x81 then 1
      else if Reading.bank a.toNat ≤ 0x83 then 2
      else if Reading.bank a.toNat ≤ 0x87 then 3
      else if Reading.bank a.toNat ≤ 0x8F then 4
      else if Reading.bank a.toNat ≤ 0x9F then 5
      else if Reading.bank a.toNat ≤ 0xBF then 6
      else 7 := by
  rw [Reading.bank, ← bankOf_toNat]
  generalize bankOf a = b
  revert b
  decide +kernel

/-- A raw address is covered by the fold row at its bank's place, and by no other. -/
theorem rawAddress_of_place {a : Addr} {n : Nat} {r : Row} {i : Instr} (hn : foldPlace (bankOf a) = n)
    (hr : (rowsOf .rawAddress)[n]? = some r) (hi : r.build (0#3 ++ a : BitVec 27) = i) (hw : i.wellFormed = true) :
    (rows.filter (fun r => r.covers .rawAddress (BitVec.ofNat 27 a.toNat))).length = 1 ∧
    decode .rawAddress a.toNat = .ok i := by
  have hp := fitPlaces_fold (bankOf a)
  rw [bankOf, ← and_testedBits_fold a, ← bankOf, hn] at hp
  obtain ⟨hone, hdecode⟩ := decode_of_place a.isLt (ofNat27_addr a) hp hr
  exact ⟨by rw [ofNat27_addr]; exact hone, hdecode.trans (by rw [hi, if_pos hw])⟩

/-- Settles O2: in each range of banks the address's place is that range's row, and the row admits the address. -/
theorem everyAddressHasOneFoldClass : Obligations.EveryAddressHasOneFoldClass := by
  intro a
  have hplace := foldPlace_bankOf a
  have hbank := bank_le a
  split_ifs at hplace ⊢
  all_goals
    refine rawAddress_of_place hplace rfl (by simp only [operandOf_append]) ?_
    simp only [Instr.wellFormed, bankIn_iff]
    omega

end Sys2Proof

/-! Cart as an assembly of bits (spec/30_encoding.md R66). -/

namespace Sys2Proof.Machine

theorem getLsbD_bankMask (n : Nat) : (0x110000 : Addr).getLsbD n = (decide (n = 16) || decide (n = 20)) := by
  rcases Nat.lt_or_ge n 24 with h | h
  · revert n; decide
  · simp [BitVec.getLsbD_of_ge _ _ h, show n ≠ 16 by omega, show n ≠ 20 by omega]

theorem getLsbD_offsetMask (n : Nat) : (0x7FFF : Addr).getLsbD n = decide (n < 15) := by
  rcases Nat.lt_or_ge n 24 with h | h
  · revert n; decide
  · simp [BitVec.getLsbD_of_ge _ _ h, show ¬ n < 15 by omega]

/-- The two parts of Cart have no bit in common, so their sum is their bitwise or. -/
theorem cart_eq_or (x : Addr) : cart x = ((x &&& 0x110000) >>> 1) ||| (x &&& 0x7FFF) := by
  apply BitVec.add_eq_or_of_and_eq_zero
  apply BitVec.eq_of_getLsbD_eq
  intro n hn
  simp only [BitVec.getLsbD_and, BitVec.getLsbD_ushiftRight, getLsbD_bankMask, getLsbD_offsetMask, BitVec.getLsbD_zero]
  by_cases h : n < 15
  · simp [show 1 + n ≠ 16 by omega, show 1 + n ≠ 20 by omega]
  · simp [h]

theorem getLsbD_cart (x : Addr) (n : Nat) :
    (cart x).getLsbD n =
      if n = 19 then x.getLsbD 20 else if n = 15 then x.getLsbD 16 else decide (n < 15) && x.getLsbD n := by
  simp only [cart_eq_or, BitVec.getLsbD_or, BitVec.getLsbD_and, BitVec.getLsbD_ushiftRight, getLsbD_bankMask,
    getLsbD_offsetMask]
  split_ifs with h19 h15
  · subst h19; simp
  · subst h15; simp
  · simp [show ¬ 1 + n = 16 by omega, show ¬ 1 + n = 20 by omega, Bool.and_comm]

/-- Settles O15: the sum is the bitwise or of its parts, and each bit is read off the or. -/
theorem cartIsTheBitAssembly : Obligations.CartIsTheBitAssembly := by
  intro x
  refine ⟨cart_toNat x, ?_, getLsbD_cart x⟩
  rw [← cart_toNat, cart_eq_or]
  simp

end Sys2Proof.Machine

/-! The bits of a sample (spec/40_bus_sample.md R82, R84). -/

namespace Sys2Proof.Machine

/-- The low bits of a snapshot word are its address. -/
theorem snapshotWord_addr_getLsbD (cs wr rd : Bool) (a : Addr) {n : Nat} (h : n < 24) :
    (snapshotWord cs wr rd a).getLsbD n = a.getLsbD n := by
  rw [snapshotWord, BitVec.getLsbD_append, if_pos h]

theorem sampleWord_sequential {s : State} (h : s.sampleMode = .sequential) (w : Window) :
    sampleWord s w = sequentialWord s.ctrlActiveLow w s.bus := by
  rw [sampleWord, h]

theorem sequentialWord_cs (low : Bool) (w : Window) (now : Lines) :
    (sequentialWord low w now).getLsbD 26 = assertedBit low (w.busAt now w.t0).cs :=
  snapshotWord_cs ..

theorem sequentialWord_rd (low : Bool) (w : Window) (now : Lines) :
    (sequentialWord low w now).getLsbD 24 = assertedBit low (w.busAt now w.rdInstant).rd :=
  snapshotWord_rd ..

theorem sequentialWord_addr (low : Bool) (w : Window) (now : Lines) {n : Nat} (h : n < 24) :
    (sequentialWord low w now).getLsbD n = (w.busAt now (w.addrInstant n)).addr.getLsbD n := by
  rw [sequentialWord, snapshotWord_addr_getLsbD _ _ _ _ h, getLsbD_assembleBits, decide_eq_true h, Bool.true_and]

/-- Settles O10: the instants are the window's own, which come in R84's order, and each bit is read at its own. -/
theorem sequentialSampleReadsLinesInOrder : Obligations.SequentialSampleReadsLinesInOrder := by
  intro s w hmode
  rw [sampleWord_sequential hmode]
  refine ⟨w.t0, w.addrEnd, w.rdInstant, w.addrInstant, addrEnd_le_rdInstant w, ?order, ?cs, ?addr, ?rd⟩
  case order => exact fun n hn => ⟨t0_le_addrInstant w n, addrInstant_le_addrEnd w n hn⟩
  case cs => exact sequentialWord_cs ..
  case addr => exact fun n hn => sequentialWord_addr _ w _ hn
  case rd => exact sequentialWord_rd ..

end Sys2Proof.Machine

/-! Banks and offsets as quotient and remainder, and the fold (spec/41_address_decoder.md R92). -/

namespace Sys2Proof.Reading

theorem bank_eq_div (A : Nat) : bank A = A / 0x10000 := Nat.shiftRight_eq_div_pow A 16

theorem offset_eq_mod (A : Nat) : offset A = A % 0x10000 := Nat.and_two_pow_sub_one_eq_mod A 16

/-- The folded bank is the folded address's own, at most 0x80, over the address's own offset. -/
theorem fold_spec {A : Nat} (h : A < 0x1000000) :
    (fold A).2 = bank (fold A).1 ∧ (fold A).2 ≤ 0x80 ∧ offset (fold A).1 = offset A := by
  simp only [fold, bank_eq_div, offset_eq_mod]
  split_ifs <;> dsimp only <;> omega

end Sys2Proof.Reading

namespace Sys2Proof.Machine

theorem bankOf_eq_bank (a : Addr) : (bankOf a).toNat = Reading.bank a.toNat := bankOf_toNat a

theorem offsetOf_eq_offset (a : Addr) : (offsetOf a).toNat = Reading.offset a.toNat := offsetOf_toNat a

theorem bankNat_eq_bank (a : Addr) : bankNat a = Reading.bank a.toNat := (Reading.bank_eq_div a.toNat).symm

theorem bankOf_gt_iff (a : Addr) : bankOf a > 0x80 ↔ Reading.bank a.toNat > 0x80 := by
  rw [gt_iff_lt, BitVec.lt_def, bankOf_eq_bank]
  exact Iff.rfl

theorem fold_of_above {a : Addr} (h : Reading.bank a.toNat > 0x80) : fold a = foldedDown a :=
  if_pos ((bankOf_gt_iff a).mpr h)

theorem fold_of_not_above {a : Addr} (h : ¬ Reading.bank a.toNat > 0x80) : fold a = (a, bankOf a) :=
  if_neg (mt (bankOf_gt_iff a).mp h)

/-- The fold is the source's pair on natural numbers: the subtraction does not wrap. -/
theorem fold_toNat (a : Addr) : ((fold a).1.toNat, (fold a).2.toNat) = Reading.fold a.toNat := by
  by_cases h : Reading.bank a.toNat > 0x80
  · obtain ⟨haddr, hbank⟩ := foldedDown_toNat a (by rwa [bankNat_eq_bank])
    rw [fold_of_above h, Reading.fold, if_pos h, haddr, hbank, bankNat_eq_bank]
  · rw [fold_of_not_above h, Reading.fold, if_neg h, bankOf_eq_bank]

theorem fold_addr_toNat (a : Addr) : (fold a).1.toNat = (Reading.fold a.toNat).1 := congrArg Prod.fst (fold_toNat a)

theorem fold_bank_toNat (a : Addr) : (fold a).2.toNat = (Reading.fold a.toNat).2 := congrArg Prod.snd (fold_toNat a)

/-- The folded bank is the folded address's own bank. -/
theorem fold_bank_eq (a : Addr) : (fold a).2.toNat = Reading.bank (fold a).1.toNat := by
  rw [fold_bank_toNat, fold_addr_toNat, (Reading.fold_spec a.isLt).1]

theorem fold_bank_le (a : Addr) : (fold a).2.toNat ≤ 0x80 := by
  rw [fold_bank_toNat]
  exact (Reading.fold_spec a.isLt).2.1

/-- The fold clears bit 23 where it takes: from bank 0x81 up that is what taking 0x800000 off does. -/
theorem foldedDown_eq_and {a : Addr} (h : Reading.bank a.toNat > 0x80) : (foldedDown a).1 = a &&& 0x7FFFFF := by
  apply BitVec.eq_of_toNat_eq
  have hlt := a.isLt
  have hmask : (a &&& 0x7FFFFF).toNat = a.toNat % 0x800000 := Nat.and_two_pow_sub_one_eq_mod a.toNat 23
  rw [(foldedDown_toNat a (by rwa [bankNat_eq_bank])).1, hmask]
  rw [Reading.bank_eq_div] at h
  omega

/-- Settles O13: the machine's pair is the pair on naturals, where each bound is arithmetic on quotient and remainder. -/
theorem foldTakesBanksAbove80 : Obligations.FoldTakesBanksAbove80 := by
  intro a
  obtain ⟨-, -, hoffset⟩ := Reading.fold_spec a.isLt
  have hbank := fold_bank_eq a
  have hle := fold_bank_le a
  refine ⟨fold_toNat a, hbank, hle, ?range, ?offset, ?above, ?bank80⟩
  case range =>
    rw [hbank, Reading.bank_eq_div] at hle
    omega
  case offset => rw [fold_addr_toNat, hoffset]
  case above =>
    intro h
    refine ⟨?_, by rw [fold_of_above h, foldedDown_eq_and h]⟩
    rw [Reading.bank_eq_div] at h
    omega
  case bank80 =>
    intro h
    rw [fold_of_not_above (by omega), Prod.mk.injEq]
    exact ⟨rfl, BitVec.eq_of_toNat_eq ((bankOf_eq_bank a).trans h)⟩

end Sys2Proof.Machine

/-! Cart as a sum of its bits (R93). -/

namespace Sys2Proof.Machine

/-- The source's bank mask picks bits 20 and 16. -/
theorem and_bankMask (X : Nat) :
    X &&& 0x110000 = X / 0x100000 % 2 * 0x100000 + X / 0x10000 % 2 * 0x10000 := by
  have hlow : (X.testBit 16).toNat * 2 ^ 16 < 2 ^ 20 := by cases X.testBit 16 <;> decide
  rw [show 0x110000 = 2 ^ 20 ||| 2 ^ 16 from rfl, Nat.and_or_distrib_left, Nat.and_two_pow, Nat.and_two_pow, Nat.mul_comm,
    ← Nat.two_pow_add_eq_or_of_lt hlow, Nat.mul_comm, Nat.toNat_testBit, Nat.toNat_testBit]
  rfl

theorem and_offsetMask (X : Nat) : X &&& 0x7FFF = X % 0x8000 := Nat.and_two_pow_sub_one_eq_mod X 15

theorem cart_toNat_eq_sum (x : Addr) :
    (cart x).toNat = x.toNat / 0x100000 % 2 * 0x80000 + x.toNat / 0x10000 % 2 * 0x8000 + x.toNat % 0x8000 := by
  rw [cart_toNat, and_bankMask, and_offsetMask, Nat.shiftRight_eq_div_pow]
  omega

theorem bit_getLsbD (x : Addr) (n : Nat) : Reading.bit (x.getLsbD n) = x.toNat / 2 ^ n % 2 := by
  rw [← Nat.toNat_testBit]
  cases h : x.toNat.testBit n <;> simp [Reading.bit, BitVec.getLsbD, h]

theorem cart_toNat_eq_bits (x : Addr) :
    (cart x).toNat = Reading.bit (x.getLsbD 20) * 0x80000 + Reading.bit (x.getLsbD 16) * 0x8000 + x.toNat % 0x8000 := by
  rw [cart_toNat_eq_sum, bit_getLsbD, bit_getLsbD]
  rfl

/-- Settles O16: Cart is the sum of bits 20, 16 and 14..0 at their places, so it depends on them alone. -/
theorem cartIgnoresTheOtherBits : Obligations.CartIgnoresTheOtherBits := by
  refine ⟨fun x => ⟨cart_toNat x, cart_le x, cart_toNat_eq_bits x, ?bankPart⟩, ?agree, by decide⟩
  case bankPart =>
    have h20 := Nat.mod_two_eq_zero_or_one (x.toNat / 0x100000)
    have h16 := Nat.mod_two_eq_zero_or_one (x.toNat / 0x10000)
    rw [and_bankMask]
    rcases h20 with h20 | h20 <;> rcases h16 with h16 | h16 <;> rw [h20, h16] <;> decide
  case agree =>
    intro x y h20 h16 hlow
    have hmod : x.toNat % 0x8000 = y.toNat % 0x8000 := by simpa using congrArg BitVec.toNat hlow
    apply BitVec.eq_of_toNat_eq
    rw [cart_toNat_eq_bits, cart_toNat_eq_bits, h20, h16, hmod]

end Sys2Proof.Machine

/-! The region rows (R95 to R107): a row writes the location its rule gives, and nothing else. -/

namespace Sys2Proof.Machine

/-- The mirror policy's offset is the source's on natural numbers wherever the bank has a next one. -/
theorem loMirror_toNat (p : MirrorPolicy) {a : Addr} (h : Reading.bank a.toNat < 0xFF) :
    (loMirror p a).toNat = Reading.loMirror p a.toNat := by
  have hnext := nextBank_toNat a (by rwa [bankNat_eq_bank])
  cases p with
  | noEffect => exact cart_toNat a
  | incMirrorOnly | incWholeBranch => exact (cart_toNat (nextBank a)).trans (congrArg Reading.cart hnext)

theorem loMiddle_toNat (p : MirrorPolicy) {a : Addr} (h : Reading.bank a.toNat < 0xFF) :
    (loMiddle p a).toNat = Reading.loMiddle p a.toNat := by
  have hnext := nextBank_toNat a (by rwa [bankNat_eq_bank])
  cases p with
  | incMirrorOnly | noEffect => exact cart_toNat a
  | incWholeBranch => exact (cart_toNat (nextBank a)).trans (congrArg Reading.cart hnext)

/-- Settles O18: each row writes its policy's offset, and the banks it admits leave room for the increment. -/
theorem loRomLowerRowsFollowTheMirrorPolicy : Obligations.LoRomLowerRowsFollowTheMirrorPolicy := by
  intro a' s
  constructor
  · intro hwf
    obtain ⟨-, hbank⟩ := (bankIn_iff ..).mp (Bool.and_eq_true_iff.mp hwf).1
    exact ⟨loMirror s.mirrorPolicy a', rfl, loMirror_toNat _ (by omega)⟩
  · intro i hi hwf
    simp only [List.mem_cons, List.not_mem_nil, or_false] at hi
    rcases hi with rfl | rfl
    all_goals
      obtain ⟨-, hbank⟩ := (bankIn_iff ..).mp hwf
      exact ⟨loMiddle s.mirrorPolicy a', rfl, loMiddle_toNat _ (by omega)⟩

@[simp] theorem sramOffset_zero (m : Layout) (a : Addr) : sramOffset .zero m a = 0 := rfl

/-- Offset 0 always lies inside SRAM, which has at least 0x400 bytes (R24). -/
theorem get_sram_zero (s : State) : s.get (.sram 0) = some (Cells.lookup s.sram 0) :=
  readImage_of_lt (Nat.lt_of_lt_of_le (by decide) (sramBytes_ge s.sramSizeClass))

/-- Settles O19: each SRAM row writes the policy's offset, which for ZERO is 0. -/
theorem sramRowsFollowTheOffsetPolicy : Obligations.SramRowsFollowTheOffsetPolicy := by
  intro a' s
  refine ⟨rfl, rfl, rfl, fun m => sramOffset_zero m a', get_sram_zero s, ?zeroRows⟩
  case zeroRows =>
    intro hzero i hi
    have hoffset (m : Layout) : sramOffset s.sramPolicy m a' = 0 := by rw [hzero, sramOffset_zero]
    simp only [List.mem_cons, List.not_mem_nil, or_false] at hi
    rcases hi with rfl | rfl | rfl
    · exact congrArg (fun k => writeLoc (.sram k) s) (hoffset .lo)
    · exact congrArg (fun k => writeLoc (.sram k) s) (hoffset .lo)
    · exact congrArg (fun k => writeLoc (.sram k) s) (hoffset .hi)

/-- Settles O22: neither the extended-mode rows nor the decode in those modes read anything. -/
theorem extendedModesDecodeToUnmapped : Obligations.ExtendedModesDecodeToUnmapped :=
  fun _ _ _ _ _ => ⟨rfl, rfl, rfl, rfl⟩

end Sys2Proof.Machine

/-! The decode algorithm (R90, R91, R94, R101). -/

namespace Sys2Proof.Machine

/-! Its cases, decided on natural numbers. -/

theorem decodeLo_eq (mp : MirrorPolicy) (sp : OffsetFormula) (a : Addr) :
    decodeLo mp sp a =
      if (Reading.fold a.toNat).2 < 0x40 ∧ Reading.offset (Reading.fold a.toNat).1 > 0x7FFF then .rom (cart (fold a).1)
      else if (Reading.fold a.toNat).2 < 0x70 then
        if (Reading.fold a.toNat).2 < 0x40 then .rom (loMirror mp (fold a).1) else .rom (loMiddle mp (fold a).1)
      else if Reading.offset (Reading.fold a.toNat).1 < 0x8000 then .sram (sramOffset sp .lo (fold a).1)
      else .rom (cart (fold a).1) := by
  simp only [decodeLo, gt_iff_lt, BitVec.lt_def, BitVec.reduceToNat, offsetOf_eq_offset, fold_addr_toNat, fold_bank_toNat]

theorem decodeHi_eq (sp : OffsetFormula) (a : Addr) :
    decodeHi sp a =
      if (Reading.fold a.toNat).2 < 0x20 then .rom (fold a).1
      else if (Reading.fold a.toNat).2 < 0x40 then
        if Reading.offset (Reading.fold a.toNat).1 < 0x8000 then .sram (sramOffset sp .hi (fold a).1) else .rom (fold a).1
      else .rom (hiUpper (fold a).1) := by
  simp only [decodeHi, BitVec.lt_def, BitVec.reduceToNat, offsetOf_eq_offset, fold_addr_toNat, fold_bank_toNat]

/-- The machine's policy offset is the number R108's function gives. -/
theorem sramOffset_toNat (sp : OffsetFormula) (m : Layout) (a : Addr) :
    (sramOffset sp m a).toNat = Reading.policy sp m a.toNat := by
  rw [Reading.policy, BitVec.ofNat_toNat, BitVec.setWidth_eq]

theorem place_decodeLo (mp : MirrorPolicy) (sp : OffsetFormula) (a : Addr) :
    Reading.place (decodeLo mp sp a) = Reading.decodeLo mp (Reading.policy sp) a.toNat := by
  have hbank : Reading.bank (fold a).1.toNat < 0xFF := by
    rw [← fold_bank_eq]
    exact Nat.lt_of_le_of_lt (fold_bank_le a) (by decide)
  simp only [decodeLo_eq, Reading.decodeLo, ← fold_addr_toNat]
  split_ifs
  · exact congrArg Reading.Place.rom (cart_toNat _)
  · exact congrArg Reading.Place.rom (loMirror_toNat mp hbank)
  · exact congrArg Reading.Place.rom (loMiddle_toNat mp hbank)
  · exact congrArg Reading.Place.sram (sramOffset_toNat sp .lo _)
  · exact congrArg Reading.Place.rom (cart_toNat _)

/-- From folded bank 0x40 up HiROM's subtraction does not wrap (R105). -/
theorem hiUpper_fold_toNat {a : Addr} (h : 0x40 ≤ (Reading.fold a.toNat).2) :
    (hiUpper (fold a).1).toNat = (fold a).1.toNat - 0x400000 :=
  hiUpper_toNat _ (by rwa [bankNat_eq_bank, ← fold_bank_eq, fold_bank_toNat])

theorem place_decodeHi (sp : OffsetFormula) (a : Addr) :
    Reading.place (decodeHi sp a) = Reading.decodeHi (Reading.policy sp) a.toNat := by
  simp only [decodeHi_eq, Reading.decodeHi, ← fold_addr_toNat]
  split_ifs with h20 h40 hlow
  · rfl
  · exact congrArg Reading.Place.sram (sramOffset_toNat sp .hi _)
  · rfl
  · exact congrArg Reading.Place.rom (hiUpper_fold_toNat (Nat.le_of_not_lt h40))

/-- Settles O23, mode by mode: the cases are decided alike, and no arithmetic in them wraps. -/
theorem decodeIsTheAlgorithmOnNaturals : Obligations.DecodeIsTheAlgorithmOnNaturals := by
  intro m mp sp a
  cases m with
  | loROM => exact place_decodeLo mp sp a
  | hiROM => exact place_decodeHi sp a
  | exLoROM | exHiROM => rfl

/-! What the decoder can answer. -/

/-- LoROM answers a ROM offset in Cart's range or an SRAM offset (R109, R110). -/
theorem decodeLo_cases (mp : MirrorPolicy) (sp : OffsetFormula) (a : Addr) :
    (∃ k, decodeLo mp sp a = .rom k ∧ k.toNat ≤ 0x8FFFF) ∨ (∃ k, decodeLo mp sp a = .sram k) := by
  rw [decodeLo_eq]
  split_ifs
  · exact .inl ⟨_, rfl, cart_le _⟩
  · exact .inl ⟨_, rfl, loMirror_le mp _⟩
  · exact .inl ⟨_, rfl, loMiddle_le mp _⟩
  · exact .inr ⟨_, rfl⟩
  · exact .inl ⟨_, rfl, cart_le _⟩

/-- HiROM answers a ROM offset up to 0x40FFFF or an SRAM offset (R109, R110). -/
theorem decodeHi_cases (sp : OffsetFormula) (a : Addr) :
    (∃ k, decodeHi sp a = .rom k ∧ k.toNat ≤ 0x40FFFF) ∨ (∃ k, decodeHi sp a = .sram k) := by
  have hbank : (Reading.fold a.toNat).2 = (fold a).1.toNat / 0x10000 := by
    rw [← fold_bank_toNat, fold_bank_eq, Reading.bank_eq_div]
  have hle : (Reading.fold a.toNat).2 ≤ 0x80 := (Reading.fold_spec a.isLt).2.1
  rw [decodeHi_eq]
  split_ifs with h20 h40 hlow
  · exact .inl ⟨_, rfl, by omega⟩
  · exact .inr ⟨_, rfl⟩
  · exact .inl ⟨_, rfl, by omega⟩
  · exact .inl ⟨_, rfl, by rw [hiUpper_fold_toNat (Nat.le_of_not_lt h40)]; omega⟩

/-- In LoROM and HiROM every address is a ROM or an SRAM location (R110). -/
theorem decodeAddress_mapped {m : Mode} (h : m = .loROM ∨ m = .hiROM) (mp : MirrorPolicy) (sp : OffsetFormula) (a : Addr) :
    (∃ k, decodeAddress m mp sp a = .rom k) ∨ (∃ k, decodeAddress m mp sp a = .sram k) := by
  rcases h with rfl | rfl
  · exact (decodeLo_cases mp sp a).imp_left fun ⟨k, hk, _⟩ => ⟨k, hk⟩
  · exact (decodeHi_cases sp a).imp_left fun ⟨k, hk, _⟩ => ⟨k, hk⟩

theorem decodeAddress_ne_unmapped {m : Mode} (h : m = .loROM ∨ m = .hiROM) (mp : MirrorPolicy) (sp : OffsetFormula)
    (a : Addr) : decodeAddress m mp sp a ≠ .unmapped := by
  rcases decodeAddress_mapped h mp sp a with ⟨k, hk⟩ | ⟨k, hk⟩ <;> simp [hk]

/-- A location that is a ROM offset of a range, or an SRAM offset, is in the range wherever it is a ROM offset. -/
theorem rom_le_of_cases {loc : Location} {k : Addr} {n : Nat}
    (h : (∃ j, loc = .rom j ∧ j.toNat ≤ n) ∨ (∃ j, loc = .sram j)) (hk : loc = .rom k) : k.toNat ≤ n := by
  subst hk
  rcases h with ⟨j, hj, hle⟩ | ⟨j, hj⟩
  · cases hj
    exact hle
  · cases hj

/-- Settles O25: each mode's answers are in its range; in a ROM of 0x8000 bytes 0x018000 decodes to the first offset past it. -/
theorem romOffsetsStayInTheModesRange : Obligations.RomOffsetsStayInTheModesRange :=
  ⟨fun mp sp a _ => ⟨rom_le_of_cases (decodeLo_cases mp sp a), rom_le_of_cases (decodeHi_cases sp a)⟩,
    { State.reset with romSize := 0x8000 }, 0x018000, 0x8000, by decide, by decide⟩

/-! Where Get answers nothing. -/

theorem readImage_eq_none_iff {size : Nat} {cells : List Host.Cell} {k : Nat} :
    readImage size cells k = none ↔ size ≤ k := by
  rw [readImage, ite_eq_right_iff]
  simp

theorem get_rom_eq_none_iff (s : State) (k : Addr) : s.get (.rom k) = none ↔ s.romSize ≤ k.toNat :=
  readImage_eq_none_iff

theorem get_sram_eq_none_iff (s : State) (k : Addr) :
    s.get (.sram k) = none ↔ 0x400 * 2 ^ s.sramSizeClass.toNat ≤ k.toNat := by
  rw [← Nat.shiftLeft_eq]
  exact readImage_eq_none_iff

/-- Settles O26: the two mapped modes answer a ROM or an SRAM location, whose byte is missing exactly out of bounds. -/
theorem unmappedExactlyInExtendedModes : Obligations.UnmappedExactlyInExtendedModes := by
  refine ⟨fun m mp sp a => ?unmapped, fun s a hmode => ?nothing⟩
  case unmapped =>
    cases m with
    | loROM => exact iff_of_false (decodeAddress_ne_unmapped (.inl rfl) mp sp a) (by decide)
    | hiROM => exact iff_of_false (decodeAddress_ne_unmapped (.inr rfl) mp sp a) (by decide)
    | exLoROM => exact iff_of_true rfl (.inl rfl)
    | exHiROM => exact iff_of_true rfl (.inr rfl)
  case nothing =>
    rcases decodeAddress_mapped hmode s.mirrorPolicy s.sramPolicy a with ⟨k, hk⟩ | ⟨k, hk⟩
    · rw [State.decoded, hk, get_rom_eq_none_iff]
      simp
    · rw [State.decoded, hk, get_sram_eq_none_iff]
      simp

/-! Addresses that decode alike. -/

/-- The decode reads an address through its fold alone. -/
theorem decodeAddress_congr_fold {a c : Addr} (h : fold a = fold c) (m : Mode) (mp : MirrorPolicy) (sp : OffsetFormula) :
    decodeAddress m mp sp a = decodeAddress m mp sp c := by
  cases m <;> simp only [decodeAddress, decodeLo, decodeHi, h]

/-- Above bank 0x80 the address 0x800000 below has the same fold, which leaves that address alone. -/
theorem fold_sub_topHalf {a : Addr} (h : Reading.bank a.toNat > 0x80) : fold (a - 0x800000) = fold a := by
  have hlt := a.isLt
  have hsub : (a - 0x800000).toNat = a.toNat - 0x800000 := (foldedDown_toNat a (by rwa [bankNat_eq_bank])).1
  have hbank : Reading.bank (a - 0x800000).toNat = Reading.bank a.toNat - 0x80 := by
    rw [hsub, Reading.bank_eq_div, Reading.bank_eq_div]
    omega
  have hle := bank_le a
  rw [fold_of_above h, fold_of_not_above (by omega)]
  refine Prod.ext rfl (BitVec.eq_of_toNat_eq ?_)
  rw [bankOf_eq_bank, hbank, (foldedDown_toNat a (by rwa [bankNat_eq_bank])).2, bankNat_eq_bank]

/-- Settles O27: the two addresses have one fold; bank 0x80 has its own. -/
theorem foldLaw : Obligations.FoldLaw :=
  ⟨fun m mp sp _ h => decodeAddress_congr_fold (fold_sub_topHalf h).symm m mp sp, fun _ _ => ⟨rfl, rfl⟩⟩

/-- The lower half of LoROM's low banks is mapped by the mirror policy (R97). -/
theorem decodeLo_of_mirror (mp : MirrorPolicy) (sp : OffsetFormula) {a : Addr} (hbank : Reading.bank a.toNat < 0x40)
    (hoffset : Reading.offset a.toNat ≤ 0x7FFF) : decodeLo mp sp a = .rom (loMirror mp a) := by
  have hkeep : ¬ Reading.bank a.toNat > 0x80 := by omega
  simp only [decodeLo_eq, fold_of_not_above hkeep, Reading.fold, if_neg hkeep]
  rw [if_neg (by omega), if_pos (by omega), if_pos hbank]

/-- LoROM's banks 0x40 to 0x6F are mapped by the middle branch (R98). -/
theorem decodeLo_of_middle (mp : MirrorPolicy) (sp : OffsetFormula) {a : Addr} (hlow : 0x40 ≤ Reading.bank a.toNat)
    (hhigh : Reading.bank a.toNat < 0x70) : decodeLo mp sp a = .rom (loMiddle mp a) := by
  have hkeep : ¬ Reading.bank a.toNat > 0x80 := by omega
  simp only [decodeLo_eq, fold_of_not_above hkeep, Reading.fold, if_neg hkeep]
  rw [if_neg (by omega), if_pos hhigh, if_neg (by omega)]

/-- An offset of the lower half adds to Cart of its bank: it reaches none of the bank's bits. -/
theorem cart_add_low {base o : Addr} (hbase : base.toNat % 0x8000 = 0) (ho : o.toNat ≤ 0x7FFF) :
    cart (base + o) = cart base + o := by
  have hlt := base.isLt
  have hcart := cart_le base
  have hsum : (base + o).toNat = base.toNat + o.toNat := BitVec.toNat_add_of_lt (by omega)
  apply BitVec.eq_of_toNat_eq
  rw [BitVec.toNat_add_of_lt (by omega), cart_toNat_eq_sum, cart_toNat_eq_sum, hsum]
  omega

theorem nextBank_add (base o : Addr) : nextBank (base + o) = nextBank base + o := add_right_comm base o 0x010000

/-- In bank 0x3F's lower half LoROM follows the mirror policy. -/
theorem decodeLo_bank3F (mp : MirrorPolicy) (sp : OffsetFormula) {o : Addr} (ho : o.toNat ≤ 0x7FFF) :
    decodeLo mp sp (0x3F0000 + o) = .rom (loMirror mp (0x3F0000 + o)) := by
  have hsum : (0x3F0000 + o).toNat = 0x3F0000 + o.toNat :=
    BitVec.toNat_add_of_lt (Nat.lt_of_le_of_lt (Nat.add_le_add_left ho 0x3F0000) (by decide))
  apply decodeLo_of_mirror
  · rw [Reading.bank_eq_div]; omega
  · rw [Reading.offset_eq_mod]; omega

theorem decodeLo_bank40 (mp : MirrorPolicy) (sp : OffsetFormula) {o : Addr} (ho : o.toNat ≤ 0x7FFF) :
    decodeLo mp sp (0x400000 + o) = .rom (loMiddle mp (0x400000 + o)) := by
  have hsum : (0x400000 + o).toNat = 0x400000 + o.toNat :=
    BitVec.toNat_add_of_lt (Nat.lt_of_le_of_lt (Nat.add_le_add_left ho 0x400000) (by decide))
  apply decodeLo_of_middle
  · rw [Reading.bank_eq_div]; omega
  · rw [Reading.bank_eq_div]; omega

/-- Settles O28: bank 0x3F goes by the mirror policy and bank 0x40 by the middle one, and each bank's Cart is fixed. -/
theorem lowBankMirrorLaw : Obligations.LowBankMirrorLaw := by
  intro sp o ho
  have cart3F : cart (0x3F0000 + o) = 0x88000 + o := cart_add_low (base := 0x3F0000) (by decide) ho
  have cart40 : cart (0x400000 + o) = o := (cart_add_low (by decide) ho).trans (BitVec.zero_add o)
  have cart41 : cart (0x410000 + o) = 0x8000 + o := cart_add_low (base := 0x410000) (by decide) ho
  have next3F : nextBank (0x3F0000 + o) = 0x400000 + o := nextBank_add 0x3F0000 o
  have next40 : nextBank (0x400000 + o) = 0x410000 + o := nextBank_add 0x400000 o
  simp only [decodeAddress, decodeLo_bank3F _ sp ho, decodeLo_bank40 _ sp ho, loMirror, loMiddle, next3F, next40, cart3F,
    cart40, cart41, and_self]

end Sys2Proof.Machine

/-! The LOC an operation leaves (R90, R114). -/

namespace Sys2Proof.Machine

/-- The location an operation writes to LOC in a session of this MODE and these policies; `none` where it leaves LOC. -/
def writtenLoc (m : Mode) (mp : MirrorPolicy) (sp : OffsetFormula) : Instr → Option Location
  | .idle _ _ _ => none
  | .activeNone a | .activeRead a | .activeWrite a | .activeReadWrite a => some (decodeAddress m mp sp a)
  | .nofold80 _ | .fold81 _ | .fold8283 _ | .fold8487 _ | .fold888F _ | .fold909F _ | .foldA0BF _ | .foldC0FF _
  | .nofoldLow _ => none
  | .loRom003FHi a' | .loRom707FHi a' | .loRom80Hi a' => some (.rom (cart a'))
  | .loMirror003FLo a' => some (.rom (loMirror mp a'))
  | .loRom405F a' | .loRom606F a' => some (.rom (loMiddle mp a'))
  | .loSram707F a' | .loSram80 a' => some (.sram (sramOffset sp .lo a'))
  | .hiSram203F a' => some (.sram (sramOffset sp .hi a'))
  | .hiRom001F a' | .hiRom203FHi a' => some (.rom a')
  | .hiRom407F a' | .hiRom80 a' => some (.rom (hiUpper a'))
  | .exLoUnmapped _ | .exHiUnmapped _ => some .unmapped
  | .getUnmapped _ | .getRom _ | .getSram _ => none

theorem runRead_loc (s : State) (a : Addr) : (s.runRead a).loc = s.loc := by
  rcases runRead_cases s a with ⟨d, -, h⟩ | ⟨-, h⟩
  · rw [h, State.withOutcome_loc, State.withPending_loc]
  · rw [h, State.withOutcome_loc]

/-- After an operation LOC is the location it writes, or stays where it writes none. -/
theorem exec_loc {i : Instr} {s t : State} (h : exec i s = .next t) :
    t.loc = (writtenLoc s.mode s.mirrorPolicy s.sramPolicy i).getD s.loc := by
  cases i with
  | idle rd wr a | activeNone a | activeWrite a =>
    obtain ⟨-, ht⟩ := whenSampling_next h
    injection ht with ht
    subst ht
    rfl
  | activeRead a | activeReadWrite a =>
    obtain ⟨-, ht⟩ := whenSampling_next h
    injection ht with ht
    subst ht
    exact runRead_loc _ a
  | _ =>
    injection h with h
    subst h
    rfl

theorem leavesLoc_of_writtenLoc_none {m : Mode} {mp : MirrorPolicy} {sp : OffsetFormula} {i : Instr}
    (h : writtenLoc m mp sp i = none) :
    i.format = .rawAddress ∨ i.format = .location ∨ ∃ rd wr a, i = .idle rd wr a := by
  cases i with
  | idle rd wr a => exact .inr (.inr ⟨rd, wr, a, rfl⟩)
  | nofold80 | fold81 | fold8283 | fold8487 | fold888F | fold909F | foldA0BF | foldC0FF | nofoldLow => exact .inl rfl
  | getUnmapped | getRom | getSram => exact .inr (.inl rfl)
  | _ => cases h

/-- Settles O29: both LOCs are what the operation writes under the shared MODE and policies, or the LOC before. -/
theorem locationDependsOnModeAndPoliciesAlone : Obligations.LocationDependsOnModeAndPoliciesAlone := by
  intro s t hmode hmirror hsram
  refine ⟨fun a => by rw [State.decoded, State.decoded, hmode, hmirror, hsram], fun i s' t' hs ht hkeep => ?_⟩
  rw [exec_loc hs, exec_loc ht, hmode, hmirror, hsram]
  cases hloc : writtenLoc t.mode t.mirrorPolicy t.sramPolicy i with
  | some loc => rfl
  | none => exact hkeep (leavesLoc_of_writtenLoc_none hloc)

end Sys2Proof.Machine

/-! Get, one equation per kind of location, and its three causes of nothing (R130). -/

namespace Sys2Proof.Machine

@[simp] theorem get_unmapped (s : State) : s.get .unmapped = none := rfl

theorem get_rom (s : State) (k : Addr) :
    s.get (.rom k) = if k.toNat < s.romSize then some (Cells.lookup s.rom k.toNat) else none := rfl

theorem get_sram (s : State) (k : Addr) :
    s.get (.sram k) =
      if k.toNat < 0x400 * 2 ^ s.sramSizeClass.toNat then some (Cells.lookup s.sram k.toNat) else none := by
  rw [← Nat.shiftLeft_eq]
  rfl

/-- Settles O32: each kind of location has its equation, and its own cause of nothing. -/
theorem getIsBoundsChecked : Obligations.GetIsBoundsChecked := by
  intro s loc
  cases loc with
  | rom k => exact ⟨get_rom s k, by simp [get_rom_eq_none_iff]⟩
  | sram k => exact ⟨get_sram s k, by simp [get_sram_eq_none_iff]⟩
  | unmapped => exact ⟨get_unmapped s, iff_of_true (get_unmapped s) (.inl rfl)⟩

end Sys2Proof.Machine

/-! The loop's iteration (spec/43_bus_monitor_loop.md R140 to R145): the number of a snapshot word, the three things a bus
class does after its sample, and the state each ends in. -/

namespace Sys2Proof.Machine

/-- A snapshot word is its address and its three control bits as a sum (R60). -/
theorem snapshotWord_toNat (cs wr rd : Bool) (a : Addr) :
    (snapshotWord cs wr rd a).toNat = Reading.snapshot cs wr rd a := by
  have hbit (b : Bool) : (BitVec.ofBool b).toNat = Reading.bit b := by cases b <;> rfl
  have happend {m n : Nat} (x : BitVec m) (y : BitVec n) : (x ++ y).toNat = x.toNat * 2 ^ n + y.toNat := by
    rw [BitVec.toNat_append, ← Nat.shiftLeft_add_eq_or_of_lt y.isLt, Nat.shiftLeft_eq]
  rw [snapshotWord, Reading.snapshot, happend, happend, happend, hbit, hbit, hbit]
  omega

/-- The head of an iteration latches the word and its CS bit (R140). -/
theorem withSample_snapshotWord (s : State) (cs wr rd : Bool) (a : Addr) :
    s.withSample (snapshotWord cs wr rd a) = { s with snap := snapshotWord cs wr rd a, active := cs } := by
  rw [State.withSample, snapshotWord_cs]

theorem iterate_of_sample {s : State} (h : s.phase = .sample) (word : SnapshotWord) (cls : State → State) :
    iterate word cls s = .next (cls (s.withSample word)) := whenSampling_sample _ h

theorem iterate_next {word : SnapshotWord} {cls : State → State} {s t : State} (h : iterate word cls s = .next t) :
    s.phase = .sample ∧ t = cls (s.withSample word) := by
  obtain ⟨hphase, ht⟩ := whenSampling_next h
  injection ht with ht
  exact ⟨hphase, ht.symm⟩

/-- What an iteration does after its sample: a label alone (R141), the decode and a label (R142, R144), or the decode and
the read path (R143, R145). -/
inductive IterationClass : (State → State) → Prop where
  | label (l : Label) : IterationClass fun u => u.withOutcome l
  | unread (a : Addr) (l : Label) : IterationClass fun u => (u.runDecode a).withOutcome l
  | read (a : Addr) : IterationClass fun u => (u.runDecode a).runRead a

/-- Every bus class is such an iteration, on a word of its own. -/
theorem exec_eq_iterate {i : Instr} (hi : i.format = .snapshot) :
    ∃ word cls, IterationClass cls ∧ ∀ s, exec i s = iterate word cls s := by
  cases i with
  | idle rd wr a => exact ⟨_, _, .label _, fun _ => rfl⟩
  | activeNone a | activeWrite a => exact ⟨_, _, .unread a _, fun _ => rfl⟩
  | activeRead a | activeReadWrite a => exact ⟨_, _, .read a, fun _ => rfl⟩
  | _ => cases hi

theorem runRead_of_get_some {s : State} {d : Byte} (h : s.get s.loc = some d) (a : Addr) :
    s.runRead a = (s.withPending d).withOutcome (.sendIssued a s.loc d) := by
  rw [State.runRead, h]

theorem runRead_of_get_none {s : State} (h : s.get s.loc = none) (a : Addr) :
    s.runRead a = s.withOutcome (noByteLabel a s.mode s.loc) := by
  rw [State.runRead, h]

theorem runRead_phase {s : State} (h : s.phase = .sample) (a : Addr) :
    (s.runRead a).phase = .sample ∨ (s.runRead a).phase = .sendPending := by
  cases hget : s.get s.loc with
  | some d => exact .inr (by rw [runRead_of_get_some hget, State.withOutcome_phase, State.withPending_phase])
  | none => exact .inl (by rw [runRead_of_get_none hget, State.withOutcome_phase, h])

theorem IterationClass.phase {cls : State → State} (h : IterationClass cls) {s : State} (hs : s.phase = .sample) :
    (cls s).phase = .sample ∨ (cls s).phase = .sendPending := by
  cases h with
  | label l | unread a l => exact .inl hs
  | read a => exact runRead_phase (s := s.runDecode a) hs a

/-- An iteration starts in SAMPLE and ends there or in SEND_PENDING (R140, R148). -/
theorem exec_bus_phase {i : Instr} {s t : State} (hi : i.format = .snapshot) (h : exec i s = .next t) :
    s.phase = .sample ∧ (t.phase = .sample ∨ t.phase = .sendPending) := by
  obtain ⟨word, cls, hcls, hexec⟩ := exec_eq_iterate hi
  obtain ⟨hphase, rfl⟩ := iterate_next ((hexec s).symm.trans h)
  exact ⟨hphase, hcls.phase hphase⟩

/-- With RD deasserted the iteration is the sample, the decode and the label, whatever WR is. -/
theorem iterate_unread {s : State} (h : s.phase = .sample) (wr : Bool) (a : Addr) (l : Label) :
    iterate (snapshotWord true wr false a) (fun u => (u.runDecode a).withOutcome l) s =
      .next { s with snap := snapshotWord true wr false a, active := true, loc := s.decoded a, outcome := some l } := by
  rw [iterate_of_sample h, withSample_snapshotWord]
  rfl

/-- Settles O34: both classes are such an iteration, each with its label. -/
theorem unreadIterationsOnlyDecode : Obligations.UnreadIterationsOnlyDecode := fun a _ hphase =>
  ⟨⟨_, snapshotWord_toNat .., iterate_unread hphase false a _⟩, _, snapshotWord_toNat .., iterate_unread hphase true a _⟩

/-! The read path. -/

/-- The read strobe alone counts: with WR asserted the iteration is the same but for the word (R145). -/
theorem exec_read_of_sample {s : State} (h : s.phase = .sample) (wr : Bool) (a : Addr) :
    exec (if wr then .activeReadWrite a else .activeRead a) s =
      .next (((s.withSample (snapshotWord true wr true a)).runDecode a).runRead a) := by
  cases wr with
  | false => exact iterate_of_sample h _ fun u => (u.runDecode a).runRead a
  | true => exact iterate_of_sample h _ fun u => (u.runDecode a).runRead a

/-- The label of a read without a byte, by what the address decodes to: only the extended modes decode to Unmapped (R110, R143). -/
theorem noByteLabel_decoded (s : State) (a : Addr) :
    noByteLabel a s.mode (s.decoded a) =
      if s.decoded a = .unmapped then
        (if s.mode = .exLoROM ∨ s.mode = .exHiROM then .unsupportedMode a s.mode else .unmapped a)
      else .outOfRange a (s.decoded a) := by
  have hunmapped : s.decoded a = .unmapped ↔ s.mode = .exLoROM ∨ s.mode = .exHiROM :=
    unmappedExactlyInExtendedModes.1 s.mode s.mirrorPolicy s.sramPolicy a
  cases hmode : s.mode with
  | exLoROM | exHiROM => simp [noByteLabel, hunmapped, hmode]
  | loROM | hiROM => cases hloc : s.decoded a <;> simp [noByteLabel]

/-- Settles O35: the read path's two cases, the byte found at the decoded location and none. -/
theorem readIterationsIssueTheFoundByte : Obligations.ReadIterationsIssueTheFoundByte := by
  intro wr a s hphase
  refine ⟨_, snapshotWord_toNat .., ?_⟩
  rw [exec_read_of_sample hphase]
  cases hget : s.get (s.decoded a) with
  | some d =>
    rw [runRead_of_get_some (s := (s.withSample _).runDecode a) hget, withSample_snapshotWord]
    rfl
  | none =>
    rw [runRead_of_get_none (s := (s.withSample _).runDecode a) hget, withSample_snapshotWord, ← noByteLabel_decoded]
    rfl

end Sys2Proof.Machine

/-! Two iterations with one snapshot (R151). -/

namespace Sys2Proof.Machine

/-- What two iterations with one snapshot end alike in, besides LOC. -/
structure SameAnswer (s t : State) : Prop where
  phase : s.phase = t.phase
  outcome : s.outcome = t.outcome
  snap : s.snap = t.snap
  active : s.active = t.active
  pendingByte : s.phase = .sendPending → s.pendingByte = t.pendingByte

/-- Two states of one session that have latched one snapshot in PHASE = SAMPLE. -/
structure SameLatch (s t : State) : Prop where
  session : SameSession s t
  sample : s.phase = .sample
  phase : s.phase = t.phase
  snap : s.snap = t.snap
  active : s.active = t.active

theorem SameSession.sameLatch {s t : State} (h : SameSession s t) (hs : s.phase = .sample) (ht : t.phase = .sample)
    (word : SnapshotWord) : SameLatch (s.withSample word) (t.withSample word) :=
  ⟨{ h with }, hs, hs.trans ht.symm, rfl, rfl⟩

theorem SameLatch.runDecode {s t : State} (h : SameLatch s t) (a : Addr) : SameLatch (s.runDecode a) (t.runDecode a) :=
  ⟨{ h.session with }, h.sample, h.phase, h.snap, h.active⟩

theorem SameLatch.withOutcome {s t : State} (h : SameLatch s t) (l : Label) :
    SameAnswer (s.withOutcome l) (t.withOutcome l) :=
  ⟨h.phase, rfl, h.snap, h.active, fun hpending => by cases h.sample.symm.trans hpending⟩

theorem SameLatch.runRead {s t : State} (h : SameLatch s t) (hloc : t.loc = s.loc) (a : Addr) :
    SameAnswer (s.runRead a) (t.runRead a) := by
  have hget : t.get t.loc = s.get s.loc := by rw [hloc, State.get_congr h.session]
  cases hs : s.get s.loc with
  | some d =>
    rw [runRead_of_get_some hs, runRead_of_get_some (hget.trans hs), hloc]
    exact ⟨rfl, rfl, h.snap, h.active, fun _ => rfl⟩
  | none =>
    rw [runRead_of_get_none hs, runRead_of_get_none (hget.trans hs), hloc, h.session.mode]
    exact h.withOutcome _

theorem IterationClass.sameAnswer {cls : State → State} (hcls : IterationClass cls) {s t : State} (h : SameLatch s t) :
    SameAnswer (cls s) (cls t) := by
  cases hcls with
  | label l => exact h.withOutcome l
  | unread a l => exact (h.runDecode a).withOutcome l
  | read a => exact (h.runDecode a).runRead (h.session.decoded_eq a) a

/-- The answer of an iteration depends on the session and the snapshot alone. -/
theorem exec_sameAnswer {i : Instr} {s t s' t' : State} (h : SameSession s t) (hi : i.format = .snapshot)
    (hs : exec i s = .next s') (ht : exec i t = .next t') : SameAnswer s' t' := by
  obtain ⟨word, cls, hcls, hexec⟩ := exec_eq_iterate hi
  obtain ⟨hps, rfl⟩ := iterate_next ((hexec s).symm.trans hs)
  obtain ⟨hpt, rfl⟩ := iterate_next ((hexec t).symm.trans ht)
  exact hcls.sameAnswer (h.sameLatch hps hpt word)

/-- Settles O45: LOC is what the operation writes in this session, and IDLE, which writes none, leaves it. -/
theorem iterationsAreIdempotent : Obligations.IterationsAreIdempotent := by
  intro i s t s' t' h hi hs ht
  obtain ⟨hphase, houtcome, hsnap, hactive, hbyte⟩ := exec_sameAnswer h hi hs ht
  refine ⟨fun hkeep => ?loc, hphase, houtcome, hsnap, hactive, hbyte⟩
  case loc =>
    refine (locationDependsOnModeAndPoliciesAlone s t h.mode.symm h.mirrorPolicy.symm h.sramPolicy.symm).2 i s' t' hs ht ?_
    rintro (hraw | hlocation | ⟨rd, wr, a, hidle⟩)
    · cases hi.symm.trans hraw
    · cases hi.symm.trans hlocation
    · exact hkeep.resolve_right fun hnot => hnot rd wr a hidle

end Sys2Proof.Machine

/-! The moves of the transport and the host, and where the loop has no step (R146 to R150). -/

namespace Sys2Proof.Machine

theorem step_of_move {s : State} {e : Event} {rest : List Event} (h : s.schedule = e :: rest) :
    step s = runEvent e (s.withSchedule rest) := by
  rw [step, nextMove, h]

theorem whenRunning_of_running {s : State} (h : s.phase = .sample ∨ s.phase = .sendPending)
    (m : Host.Outcome State Fault Refusal) : whenRunning s m = m := by
  rcases h with h | h <;> rw [whenRunning, h]

theorem State.deliverIf_eq (s : State) (delivered : Bool) :
    s.deliverIf delivered = { s with sent := if delivered then s.sent ++ [s.pendingByte] else s.sent } := by
  cases delivered <;> rfl

/-- In SAMPLE nothing is pending, so a stop delivers nothing (R149). -/
theorem hostStop_of_sample {s : State} (h : s.phase = .sample) (delivered : Bool) :
    hostStop delivered s = .next (s.endSession.withOutcome .stop) := by
  have hnone : (delivered && s.phase == .sendPending) = false := by simp [h]
  rw [hostStop, whenRunning_of_running (.inl h), hnone]
  rfl

theorem hostStop_of_pending {s : State} (h : s.phase = .sendPending) (delivered : Bool) :
    hostStop delivered s = .next ((s.deliverIf delivered).endSession.withOutcome .stop) := by
  have hdelivered : (delivered && s.phase == .sendPending) = delivered := by simp [h]
  rw [hostStop, whenRunning_of_running (.inr h), hdelivered]

/-- Every sample is a bus class (R67). -/
theorem format_of_sample {w : SnapshotWord} {i : Instr} (h : decode .snapshot w.toNat = .ok i) : i.format = .snapshot := by
  rw [(everySampleIsOneOperation w).2] at h
  injection h with h
  subst h
  split_ifs <;> rfl

/-- The loop moves in SAMPLE only, and its move ends in SAMPLE or SEND_PENDING (R148, R149). -/
theorem loop_phase {w : Window} {s t : State} (h : runEvent (.loop w) s = .next t) :
    s.phase = .sample ∧ (t.phase = .sample ∨ t.phase = .sendPending) := by
  obtain ⟨i, hdecode, hexec⟩ := runWord_next h
  exact exec_bus_phase (s := s.withBus (w.lastBus s.bus)) (format_of_sample hdecode) hexec

/-- Outside SAMPLE a step is the console's, or in SEND_PENDING the transport's or the host's (R148, R150). -/
theorem step_cases_of_not_sample {s t : State} (hphase : s.phase ≠ .sample) (h : step s = .next t) :
    (∃ l rest, s.schedule = .console l :: rest ∧ t = { s with bus := l, schedule := rest }) ∨
    (s.phase = .sendPending ∧
      ((∃ rest, s.schedule = .accept :: rest ∧ t.phase = .sample) ∨
       (∃ b rest, s.schedule = .fail b :: rest ∧ t.phase = .failed) ∨
       (∃ b rest, s.schedule = .stop b :: rest ∧ t.phase = .stopped))) := by
  rcases step_cases h with ⟨-, hpoll⟩ | ⟨e, rest, hsched, hmove⟩
  · exact absurd (loop_phase hpoll).1 hphase
  rcases runEvent_cases hmove with ⟨l, rfl, rfl⟩ | ⟨w, i, rfl, -, -⟩ | ⟨rfl, hp, rfl⟩ | ⟨b, rfl, hp, rfl⟩ |
    ⟨b, rfl, hp, rfl⟩ | ⟨f, w, i, hp, -⟩
  · exact .inl ⟨l, rest, hsched, rfl⟩
  · exact absurd (loop_phase hmove).1 hphase
  · exact .inr ⟨hp, .inl ⟨rest, hsched, rfl⟩⟩
  · exact .inr ⟨hp, .inr (.inl ⟨b, rest, hsched, rfl⟩)⟩
  · exact .inr ⟨hp.resolve_left hphase, .inr (.inr ⟨b, rest, hsched, rfl⟩)⟩
  · exact absurd hp hphase

/-- In FAILED and STOPPED a step is the console's (R150). -/
theorem step_of_ended {s t : State} (hend : s.phase = .failed ∨ s.phase = .stopped) (h : step s = .next t) :
    ∃ l rest, s.schedule = .console l :: rest ∧ t = { s with bus := l, schedule := rest } := by
  have hsample : s.phase ≠ .sample := by rcases hend with hp | hp <;> simp [hp]
  have hpending : s.phase ≠ .sendPending := by rcases hend with hp | hp <;> simp [hp]
  exact (step_cases_of_not_sample hsample h).resolve_right fun hmove => hpending hmove.1

/-- The session's end is for good: no step leaves the phase or changes SENT. -/
theorem step_keeps_ended {s t : State} (hend : s.phase = .failed ∨ s.phase = .stopped) (h : step s = .next t) :
    t.phase = s.phase ∧ t.sent = s.sent := by
  obtain ⟨l, rest, -, rfl⟩ := step_of_ended hend h
  exact ⟨rfl, rfl⟩

theorem step_fail_phase {s t : State} {b : Bool} {rest : List Event} (hsched : s.schedule = .fail b :: rest)
    (h : step s = .next t) : t.phase = .failed := by
  obtain ⟨-, ht⟩ := whenSendPending_next ((step_of_move hsched).symm.trans h)
  injection ht with ht
  exact ht ▸ rfl

theorem step_stop_phase {s t : State} {b : Bool} {rest : List Event} (hsched : s.schedule = .stop b :: rest)
    (h : step s = .next t) : t.phase = .stopped := by
  obtain ⟨-, ht⟩ := whenRunning_next ((step_of_move hsched).symm.trans h)
  injection ht with ht
  exact ht ▸ rfl

/-- Settles O42: outside SAMPLE a step is one of the four. -/
theorem pendingSendBlocksTheLoop : Obligations.PendingSendBlocksTheLoop := by
  intro s t hphase h
  exact (step_cases_of_not_sample (by simp [hphase]) h).imp_right And.right

/-- Settles O38: with a send pending the accept is enabled, and its move is the three updates. -/
theorem acceptAppendsThePendingByte : Obligations.AcceptAppendsThePendingByte := by
  intro s rest hsched hphase
  exact (step_of_move hsched).trans (whenSendPending_pending _ hphase)

/-- Settles O39: the failure's move with either delivery, and FAILED is for good. -/
theorem failedSendEndsTheSession : Obligations.FailedSendEndsTheSession := by
  intro s rest hphase
  refine ⟨fun hsched => ?lost, fun hsched => ?delivered, fun b t u hsched ht hu => ?after⟩
  case lost => exact (step_of_move hsched).trans (whenSendPending_pending _ hphase)
  case delivered => exact (step_of_move hsched).trans (whenSendPending_pending _ hphase)
  case after =>
    have hfailed : t.phase = .failed := step_fail_phase hsched ht
    exact hfailed ▸ step_keeps_ended (.inl hfailed) hu

/-- Settles O40: the stop's move in each phase, STOPPED is for good, and the loop's own move ends nothing. -/
theorem hostStopEndsTheSession : Obligations.HostStopEndsTheSession := by
  intro s rest
  refine ⟨fun b hsched => ⟨fun hphase => ?sample, fun hphase => ?pending, fun t u ht hu => ?after⟩, fun t hloop ht => ?loop⟩
  case sample => exact (step_of_move hsched).trans (hostStop_of_sample (s := s.withSchedule rest) hphase b)
  case pending =>
    rw [step_of_move hsched, runEvent, hostStop_of_pending (s := s.withSchedule rest) hphase, State.deliverIf_eq]
    rfl
  case after =>
    have hstopped : t.phase = .stopped := step_stop_phase hsched ht
    exact hstopped ▸ step_keeps_ended (.inr hstopped) hu
  case loop =>
    rcases step_cases ht with ⟨-, hpoll⟩ | ⟨e, rest', hsched, hmove⟩
    · exact (loop_phase hpoll).2
    · rcases hloop with hnil | ⟨w, hw⟩
      · cases hsched.symm.trans hnil
      · cases hsched.symm.trans hw
        exact (loop_phase hmove).2

end Sys2Proof.Machine

/-! The region rows: the row of every decode word (spec/30_encoding.md R69), and from a row's operand back to its word. -/

namespace Sys2Proof

open Machine

/-- The operation of a mode and a folded address, by bank range and offset half (R69); none above bank 0x80 in the two mapped
modes (R71). -/
def regionOf (m : Mode) (a' : Addr) : Option Instr :=
  match m with
  | .loROM =>
    if Reading.bank a'.toNat < 0x40 then
      if Reading.offset a'.toNat ≥ 0x8000 then some (.loRom003FHi a') else some (.loMirror003FLo a')
    else if Reading.bank a'.toNat < 0x60 then some (.loRom405F a')
    else if Reading.bank a'.toNat < 0x70 then some (.loRom606F a')
    else if Reading.bank a'.toNat < 0x80 then
      if Reading.offset a'.toNat ≥ 0x8000 then some (.loRom707FHi a') else some (.loSram707F a')
    else if Reading.bank a'.toNat = 0x80 then
      if Reading.offset a'.toNat ≥ 0x8000 then some (.loRom80Hi a') else some (.loSram80 a')
    else none
  | .hiROM =>
    if Reading.bank a'.toNat < 0x20 then some (.hiRom001F a')
    else if Reading.bank a'.toNat < 0x40 then
      if Reading.offset a'.toNat ≥ 0x8000 then some (.hiRom203FHi a') else some (.hiSram203F a')
    else if Reading.bank a'.toNat < 0x80 then some (.hiRom407F a')
    else if Reading.bank a'.toNat = 0x80 then some (.hiRom80 a')
    else none
  | .exLoROM => some (.exLoUnmapped a')
  | .exHiROM => some (.exHiUnmapped a')

theorem upperHalf_iff (a : Addr) : upperHalf a = true ↔ Reading.offset a.toNat ≥ 0x8000 := by
  rw [upperHalf_eq, offsetOf_eq_offset, decide_eq_true_eq]

theorem not_upperHalf_iff (a : Addr) : (!upperHalf a) = true ↔ Reading.offset a.toNat < 0x8000 := by
  rw [Bool.not_eq_true', ← Bool.not_eq_true, upperHalf_iff, ge_iff_le, Nat.not_le]

/-- The operation that the row at a place of `regionRows` builds from a mode's code and a folded address. -/
def regionAt (m : Mode) (a : Addr) (n : Nat) : Option Instr :=
  (rowsOf .decodeWord)[n]?.map fun r => r.build (0#1 ++ m.code ++ a : BitVec 27)

/-- The rows at the places that fit a decode word build the operation of `regionOf`, and nothing else. -/
theorem regionAt_regionPlace (m : Mode) (a : Addr) :
    (regionPlace m.code (bankOf a) (a.getLsbD 15)).map (regionAt m a) = (regionOf m a).toList.map some := by
  have hbank (k : BitVec 8) : bankOf a < k ↔ Reading.bank a.toNat < k.toNat := by rw [BitVec.lt_def, bankOf_eq_bank]
  have heq : bankOf a = 0x80 ↔ Reading.bank a.toNat = 0x80 := by rw [← BitVec.toNat_inj, bankOf_eq_bank]; rfl
  have hoperand (c : BitVec 2) : operandOf (0#1 ++ c ++ a : BitVec 27) = a := operandOf_append _ a
  rw [show a.getLsbD 15 = upperHalf a from rfl]
  cases m with
  | loROM | hiROM =>
    simp only [regionPlace, Mode.code, reduceIte, hbank, heq, BitVec.reduceToNat, regionOf, ← upperHalf_iff, BitVec.reduceEq]
    split_ifs <;> simp [regionAt, rowsOf, regionRows, hoperand]
  | exLoROM | exHiROM => simp [regionPlace, regionOf, regionAt, rowsOf, regionRows, Mode.code]

/-- The region of a decode word admits the folded address, and the word is its encoding. -/
theorem regionOf_encode {m : Mode} {a : Addr} {i : Instr} (h : regionOf m a = some i) :
    i.format = .decodeWord ∧ encode i = (regionWord m a).toNat ∧ i.wellFormed = true := by
  cases m with
  | loROM | hiROM =>
    simp only [regionOf] at h
    split_ifs at h
    all_goals
      injection h with h
      subst h
      refine ⟨rfl, rfl, ?_⟩
      simp only [Instr.wellFormed, Bool.and_eq_true, bankIn_iff, upperHalf_iff, not_upperHalf_iff]
      omega
  | exLoROM | exHiROM =>
    injection h with h
    subst h
    exact ⟨rfl, rfl, rfl⟩

/-- A decode word of an operation's region is covered by that operation's row, and by no other. -/
theorem regionWord_of_region {m : Mode} {a : Addr} {i : Instr} (h : regionOf m a = some i) :
    (rows.filter (fun r => r.covers .decodeWord (BitVec.ofNat 27 (regionWord m a).toNat))).length = 1 ∧
    decode .decodeWord (regionWord m a).toNat = .ok i := by
  obtain ⟨-, -, hw⟩ := regionOf_encode h
  have hat := regionAt_regionPlace m a
  rw [h] at hat
  obtain ⟨n, hn, hat⟩ := List.map_eq_singleton_iff.mp hat
  obtain ⟨r, hr, hi⟩ := Option.map_eq_some_iff.mp hat
  have hp := fitPlaces_region m.code (bankOf a) (a.getLsbD 15)
  rw [bankOf, ← and_testedBits_region m.code a, ← bankOf, hn] at hp
  obtain ⟨hone, hdecode⟩ := decode_of_place (regionWord m a).isLt (ofNat27_select m.code a) hp hr
  rw [← ofNat27_select] at hone
  exact ⟨hone, hdecode.trans (by rw [hi, if_pos hw])⟩

theorem decode_regionWord_of_none {m : Mode} {a : Addr} (h : regionOf m a = none) :
    decode .decodeWord (regionWord m a).toNat = .error .noRow := by
  have hn := regionAt_regionPlace m a
  rw [h] at hn
  have hp := fitPlaces_region m.code (bankOf a) (a.getLsbD 15)
  rw [bankOf, ← and_testedBits_region m.code a, ← bankOf, List.map_eq_nil_iff.mp hn] at hp
  exact decode_of_no_place (regionWord m a).isLt (ofNat27_select m.code a) hp

/-- The word of a well-formed region row is a decode word of its region. -/
theorem regionOf_of_wellFormed {i : Instr} (hi : i.format = .decodeWord) (hw : i.wellFormed = true) :
    ∃ m a, regionOf m a = some i := by
  cases i with
  | exLoUnmapped a => exact ⟨.exLoROM, a, rfl⟩
  | exHiUnmapped a => exact ⟨.exHiROM, a, rfl⟩
  | loRom003FHi a | loMirror003FLo a | loRom405F a | loRom606F a | loSram707F a | loRom707FHi a | loSram80 a | loRom80Hi a =>
    simp only [Instr.wellFormed, Bool.and_eq_true, bankIn_iff, upperHalf_iff, not_upperHalf_iff] at hw
    refine ⟨.loROM, a, ?_⟩
    simp (disch := omega) only [regionOf, if_pos, if_neg]
  | hiRom001F a | hiSram203F a | hiRom203FHi a | hiRom407F a | hiRom80 a =>
    simp only [Instr.wellFormed, Bool.and_eq_true, bankIn_iff, upperHalf_iff, not_upperHalf_iff] at hw
    refine ⟨.hiROM, a, ?_⟩
    simp (disch := omega) only [regionOf, if_pos, if_neg]
  | _ => cases hi

/-- Settles O3: below bank 0x81 every folded address has a region, the one the statement names. -/
theorem everyFoldedAddressHasOneRegion : Obligations.EveryFoldedAddressHasOneRegion := by
  intro m a' hbank
  refine ⟨?number, ?row⟩
  case number => rw [regionWord, BitVec.toNat_append, ← Nat.shiftLeft_add_eq_or_of_lt a'.isLt, Nat.shiftLeft_eq]
  case row =>
    apply regionWord_of_region
    cases m with
    | loROM | hiROM =>
      simp only [regionOf]
      split_ifs <;> grind
    | exLoROM | exHiROM => rfl

/-! The mux rows (R70). -/

/-- A location word whose TAG has a place is covered by that place's row, and by no other; the row's operand decides. -/
theorem locationWord_of_place {tag : BitVec 2} {k : Addr} {n : Nat} {r : Row} {i : Instr} (hn : muxPlace tag = [n])
    (hr : (rowsOf .location)[n]? = some r) (hi : r.build (0#1 ++ tag ++ k : BitVec 27) = i) :
    (rows.filter (fun r => r.covers .location (BitVec.ofNat 27 (locationWord tag k).toNat))).length = 1 ∧
    decode .location (locationWord tag k).toNat = if i.wellFormed then .ok i else .error .badOperand := by
  have hp := fitPlaces_mux tag
  rw [← and_testedBits_mux tag k, hn] at hp
  obtain ⟨hone, hdecode⟩ := decode_of_place (locationWord tag k).isLt (ofNat27_select tag k) hp hr
  rw [← ofNat27_select] at hone
  rw [hi] at hdecode
  exact ⟨hone, hdecode⟩

theorem locationWord_unmapped (k : Addr) :
    (rows.filter (fun r => r.covers .location (BitVec.ofNat 27 (locationWord 0b00 k).toNat))).length = 1 ∧
    decode .location (locationWord 0b00 k).toNat = if k = 0 then .ok (.getUnmapped k) else .error .badOperand := by
  obtain ⟨hone, hdecode⟩ := locationWord_of_place (tag := 0b00) rfl rfl
    (congrArg Instr.getUnmapped (operandOf_append (0#1 ++ 0b00) k))
  exact ⟨hone, by simp only [hdecode, Instr.wellFormed, beq_iff_eq]⟩

theorem locationWord_rom (k : Addr) :
    (rows.filter (fun r => r.covers .location (BitVec.ofNat 27 (locationWord 0b01 k).toNat))).length = 1 ∧
    decode .location (locationWord 0b01 k).toNat = .ok (.getRom k) :=
  locationWord_of_place (tag := 0b01) rfl rfl (congrArg Instr.getRom (operandOf_append (0#1 ++ 0b01) k))

theorem locationWord_sram (k : Addr) :
    (rows.filter (fun r => r.covers .location (BitVec.ofNat 27 (locationWord 0b10 k).toNat))).length = 1 ∧
    decode .location (locationWord 0b10 k).toNat = .ok (.getSram k) :=
  locationWord_of_place (tag := 0b10) rfl rfl (congrArg Instr.getSram (operandOf_append (0#1 ++ 0b10) k))

/-- The reserved TAG has no row (R71). -/
theorem decode_locationWord_reserved (k : Addr) : decode .location (locationWord 0b11 k).toNat = .error .noRow := by
  have hp := fitPlaces_mux 0b11
  rw [← and_testedBits_mux 0b11 k] at hp
  exact decode_of_no_place (locationWord 0b11 k).isLt (ofNat27_select 0b11 k) hp

/-- Settles O4: a location's word has the TAG of its kind, and Unmapped has K = 0. -/
theorem everyLocationHasOneMuxRow : Obligations.EveryLocationHasOneMuxRow := by
  intro loc
  cases loc with
  | unmapped => exact locationWord_unmapped 0
  | rom k => exact locationWord_rom k
  | sram k => exact locationWord_sram k

theorem decode_of_excess {f : Format} {w : Nat} (h : 2 ^ f.width ≤ w) : decode f w = .error .excessBits :=
  if_neg (Nat.not_lt.mpr h)

/-- Settles O5: no region above bank 0x80, no row for the reserved TAG, no operand but 0 for Unmapped, no excess bit. -/
theorem unreachableWordsAreRefused : Obligations.UnreachableWordsAreRefused := by
  refine ⟨fun m a' hm hbank => decode_regionWord_of_none ?_, decode_locationWord_reserved, fun k hk => ?_,
    fun f w => decode_of_excess⟩
  · rcases hm with rfl | rfl <;> simp (disch := omega) only [regionOf, if_neg]
  · rw [(locationWord_unmapped k).2, if_neg hk]

/-! Both round trips, format by format. -/

theorem decode_encode_snapshot {i : Instr} (hi : i.format = .snapshot) : decode .snapshot (encode i) = .ok i := by
  cases i with
  | idle | activeNone | activeRead | activeWrite | activeReadWrite =>
    rw [encode, (everySampleIsOneOperation _).2]
    simp
  | _ => cases hi

theorem decode_encode_rawAddress {i : Instr} (hi : i.format = .rawAddress) (hw : i.wellFormed = true) :
    decode .rawAddress (encode i) = .ok i := by
  cases i with
  | nofold80 a | fold81 a | fold8283 a | fold8487 a | fold888F a | fold909F a | foldA0BF a | foldC0FF a | nofoldLow a =>
    simp only [Instr.wellFormed, bankIn_iff] at hw
    rw [encode, (everyAddressHasOneFoldClass a).2]
    simp (disch := omega) only [if_pos, if_neg]
  | _ => cases hi

theorem decode_encode_decodeWord {i : Instr} (hi : i.format = .decodeWord) (hw : i.wellFormed = true) :
    decode .decodeWord (encode i) = .ok i := by
  obtain ⟨m, a, h⟩ := regionOf_of_wellFormed hi hw
  rw [(regionOf_encode h).2.1, (regionWord_of_region h).2]

theorem decode_encode_location {i : Instr} (hi : i.format = .location) (hw : i.wellFormed = true) :
    decode .location (encode i) = .ok i := by
  cases i with
  | getUnmapped k => rw [encode, (locationWord_unmapped k).2, if_pos (beq_iff_eq.mp hw)]
  | getRom k => exact (locationWord_rom k).2
  | getSram k => exact (locationWord_sram k).2
  | _ => cases hi

/-- Settles O6, format by format. -/
theorem decodeOfEncodeIsTheOperation : Obligations.DecodeOfEncodeIsTheOperation := by
  intro i hw
  cases hi : i.format with
  | snapshot => exact decode_encode_snapshot hi
  | rawAddress => exact decode_encode_rawAddress hi hw
  | decodeWord => exact decode_encode_decodeWord hi hw
  | location => exact decode_encode_location hi hw

/-- Only a number of the format's width decodes. -/
theorem lt_of_decode {f : Format} {w : Nat} {i : Instr} (h : decode f w = .ok i) : w < 2 ^ f.width := by
  by_contra hge
  rw [decode_of_excess (Nat.not_lt.mp hge)] at h
  cases h

/-- A 26-bit word is its upper two bits, MODE or TAG, over its lower 24, the operand (R62, R63). -/
theorem selectWord_toNat {w : Nat} (h : w < 2 ^ 26) :
    (BitVec.ofNat 2 (w >>> 24) ++ BitVec.ofNat 24 w : SelectWord).toNat = w := by
  rw [BitVec.toNat_append, ← Nat.shiftLeft_add_eq_or_of_lt (BitVec.isLt _), Nat.shiftLeft_eq, BitVec.toNat_ofNat,
    BitVec.toNat_ofNat, Nat.shiftRight_eq_div_pow]
  omega

theorem Mode.code_ofCode (c : BitVec 2) : (Mode.ofCode c).code = c := by
  revert c
  decide

/-- A 26-bit number is the decode word of a mode and a folded address. -/
theorem regionWord_ofNat {w : Nat} (h : w < 2 ^ 26) :
    (regionWord (Mode.ofCode (BitVec.ofNat 2 (w >>> 24))) (BitVec.ofNat 24 w)).toNat = w := by
  rw [regionWord, Mode.code_ofCode]
  exact selectWord_toNat h

theorem encode_decode_snapshot {w : SnapshotWord} {i : Instr} (h : decode .snapshot w.toNat = .ok i) :
    i.format = .snapshot ∧ encode i = w.toNat ∧ i.wellFormed = true := by
  obtain ⟨cs, wr, rd, a, rfl⟩ : ∃ cs wr rd a, w = snapshotWord cs wr rd a := ⟨_, _, _, _, (snapshotWord_fields w).symm⟩
  rw [(everySampleIsOneOperation _).2] at h
  simp only [snapshotWord_cs, snapshotWord_wr, snapshotWord_rd, snapshotWord_addr] at h
  injection h with h
  subst h
  cases cs <;> cases rd <;> cases wr <;> exact ⟨rfl, rfl, rfl⟩

theorem encode_decode_rawAddress {a : Addr} {i : Instr} (h : decode .rawAddress a.toNat = .ok i) :
    i.format = .rawAddress ∧ encode i = a.toNat ∧ i.wellFormed = true := by
  have hbank := bank_le a
  rw [(everyAddressHasOneFoldClass a).2] at h
  injection h with h
  split_ifs at h
  all_goals
    subst h
    refine ⟨rfl, rfl, ?_⟩
    simp only [Instr.wellFormed, bankIn_iff]
    omega

/-- A decode word that decodes has a region. -/
theorem regionOf_of_decode {m : Mode} {a : Addr} {i : Instr} (h : decode .decodeWord (regionWord m a).toNat = .ok i) :
    regionOf m a = some i := by
  cases hr : regionOf m a with
  | none => cases (decode_regionWord_of_none hr).symm.trans h
  | some j =>
    cases (regionWord_of_region hr).2.symm.trans h
    rfl

theorem encode_decode_location {tag : BitVec 2} {k : Addr} {i : Instr}
    (h : decode .location (locationWord tag k).toNat = .ok i) :
    i.format = .location ∧ encode i = (locationWord tag k).toNat ∧ i.wellFormed = true := by
  have htag : tag = 0b00 ∨ tag = 0b01 ∨ tag = 0b10 ∨ tag = 0b11 := by
    clear h
    revert tag
    decide
  rcases htag with rfl | rfl | rfl | rfl
  · rw [(locationWord_unmapped k).2] at h
    split_ifs at h with hk
    injection h with h
    subst h
    exact ⟨rfl, rfl, beq_iff_eq.mpr hk⟩
  · cases (locationWord_rom k).2.symm.trans h
    exact ⟨rfl, rfl, rfl⟩
  · cases (locationWord_sram k).2.symm.trans h
    exact ⟨rfl, rfl, rfl⟩
  · cases (decode_locationWord_reserved k).symm.trans h

/-- Settles O7: a word that decodes fits its format, so it is one of the format's words, written by its fields. -/
theorem encodeOfDecodeIsTheWord : Obligations.EncodeOfDecodeIsTheWord := by
  intro f w i h
  have hw := lt_of_decode h
  cases f with
  | snapshot =>
    obtain ⟨v, rfl⟩ : ∃ v : SnapshotWord, v.toNat = w := ⟨.ofNatLT w hw, rfl⟩
    exact encode_decode_snapshot h
  | rawAddress =>
    obtain ⟨a, rfl⟩ : ∃ a : Addr, a.toNat = w := ⟨.ofNatLT w hw, rfl⟩
    exact encode_decode_rawAddress h
  | decodeWord =>
    obtain ⟨m, a, rfl⟩ : ∃ m a, (regionWord m a).toNat = w := ⟨_, _, regionWord_ofNat hw⟩
    exact regionOf_encode (regionOf_of_decode h)
  | location =>
    obtain ⟨tag, k, rfl⟩ : ∃ tag k, (locationWord tag k).toNat = w := ⟨_, _, selectWord_toNat hw⟩
    exact encode_decode_location h

/-- Settles O8: the decoder is evaluated on each word. -/
theorem writtenWordsDecode : Obligations.WrittenWordsDecode :=
  ⟨rfl, rfl, rfl, rfl, rfl, rfl, rfl, rfl, rfl, rfl⟩

end Sys2Proof

/-! The location a region row writes (spec/41_address_decoder.md R90): the decode of the folded address. -/

namespace Sys2Proof.Machine

/-- The fold of a folded address is the address's own (R92). -/
theorem fold_fold (a : Addr) : fold (fold a).1 = fold a := by
  by_cases h : Reading.bank a.toNat > 0x80
  · rw [fold_of_above h]
    exact (fold_sub_topHalf h).trans (fold_of_above h)
  · rw [fold_of_not_above h, fold_of_not_above h]

/-- The bank of a mapped mode's region is one the fold leaves. -/
theorem bank_le_of_regionOf {m : Mode} {a : Addr} {i : Instr} (hm : m = .loROM ∨ m = .hiROM) (h : regionOf m a = some i) :
    ¬ Reading.bank a.toNat > 0x80 := by
  intro hbank
  cases (unreachableWordsAreRefused.1 m a hm hbank).symm.trans (regionWord_of_region h).2

/-- The row of a mode and a folded address writes what the mode's algorithm decodes the address to. -/
theorem writtenLoc_regionOf {m : Mode} {a : Addr} {i : Instr} (h : regionOf m a = some i) (mp : MirrorPolicy)
    (sp : OffsetFormula) : writtenLoc m mp sp i = some (decodeAddress m mp sp a) := by
  cases m with
  | loROM | hiROM =>
    have hkeep := bank_le_of_regionOf (by simp) h
    simp only [decodeAddress, decodeLo_eq, decodeHi_eq, fold_of_not_above hkeep, Reading.fold, if_neg hkeep]
    simp only [regionOf] at h
    split_ifs at h
    all_goals
      injection h with h
      subst h
      simp (disch := omega) only [writtenLoc, if_pos, if_neg]
  | exLoROM | exHiROM =>
    injection h with h
    subst h
    rfl

/-- Every location an operation writes is the decode of some address, where a region row is one of the session's MODE. -/
theorem writtenLoc_eq_decode {m : Mode} {mp : MirrorPolicy} {sp : OffsetFormula} {i : Instr} {loc : Location}
    (hregion : i.format = .decodeWord → ∃ a', regionOf m a' = some i) (h : writtenLoc m mp sp i = some loc) :
    ∃ a, loc = decodeAddress m mp sp a := by
  cases i with
  | activeNone a | activeRead a | activeWrite a | activeReadWrite a => exact ⟨a, (Option.some.inj h).symm⟩
  | idle | nofold80 | fold81 | fold8283 | fold8487 | fold888F | fold909F | foldA0BF | foldC0FF | nofoldLow | getUnmapped
  | getRom | getSram => cases h
  | _ =>
    obtain ⟨a', hr⟩ := hregion rfl
    exact ⟨a', Option.some.inj (h.symm.trans (writtenLoc_regionOf hr mp sp))⟩

end Sys2Proof.Machine

/-! The session invariant (`Safe`), kept by every operation, move and step. -/

namespace Sys2Proof.Machine

theorem LocInRange.congr {s t : State} (h : LocInRange s) (hmode : t.mode = s.mode) (hloc : t.loc = s.loc) : LocInRange t := by
  rw [LocInRange, hmode, hloc]
  exact h

/-- What the session's decoder answers is in its mode's range (R109, R110). -/
theorem locInRange_of_decoded {s : State} {a : Addr} (h : s.loc = s.decoded a) : LocInRange s := by
  rw [State.decoded] at h
  rw [LocInRange]
  cases hmode : s.mode with
  | loROM =>
    rw [hmode] at h
    rcases decodeLo_cases s.mirrorPolicy s.sramPolicy a with ⟨k, hk, hle⟩ | ⟨k, hk⟩
    · rw [h.trans hk]
      exact .inl ⟨rfl, hle⟩
    · rw [h.trans hk]
      exact .inl rfl
  | hiROM =>
    rw [hmode] at h
    rcases decodeHi_cases s.sramPolicy a with ⟨k, hk, hle⟩ | ⟨k, hk⟩
    · rw [h.trans hk]
      exact .inr ⟨rfl, hle⟩
    · rw [h.trans hk]
      exact .inr rfl
  | exLoROM | exHiROM =>
    rw [hmode] at h
    rw [h]
    trivial

/-- An operation leaves LOC or writes a decoded location. -/
theorem exec_locInRange {i : Instr} {s t : State} (h : LocInRange s)
    (hregion : i.format = .decodeWord → ∃ a', regionOf s.mode a' = some i) (hexec : exec i s = .next t) : LocInRange t := by
  have hsession := exec_sameSession hexec
  have hloc := exec_loc hexec
  cases hw : writtenLoc s.mode s.mirrorPolicy s.sramPolicy i with
  | none =>
    rw [hw] at hloc
    exact h.congr hsession.mode hloc
  | some loc =>
    obtain ⟨a, rfl⟩ := writtenLoc_eq_decode hregion hw
    rw [hw] at hloc
    exact locInRange_of_decoded (hloc.trans (hsession.decoded_eq a).symm)

theorem sendConsistent_of_sample {s : State} (h : s.phase = .sample) : SendConsistent s := fun hpending => by
  cases h.symm.trans hpending

/-- An operation keeps a pending byte the byte at LOC: a region row, which could move LOC from under it, runs in SAMPLE. -/
theorem exec_sendConsistent {i : Instr} {s t : State} (h : SendConsistent s)
    (hregion : i.format = .decodeWord → s.phase = .sample) (hexec : exec i s = .next t) : SendConsistent t := by
  rcases exec_cases hexec with ⟨r, rfl⟩ | ⟨hi, loc, rfl⟩ | ⟨hp, word, l, rfl⟩ | ⟨hp, word, a, l, rfl⟩ |
    ⟨-, word, a, d, l, hget, rfl⟩
  · exact fun hpending => (State.get_congr (exec_sameSession hexec) s.loc).trans (h hpending)
  · exact sendConsistent_of_sample (hregion hi)
  · exact sendConsistent_of_sample hp
  · exact sendConsistent_of_sample hp
  · exact fun _ => (State.get_congr (exec_sameSession hexec) (s.decoded a)).trans hget

theorem exec_activeIsSelect {i : Instr} {s t : State} (h : ActiveIsSelect s) (hexec : exec i s = .next t) :
    ActiveIsSelect t := by
  rcases exec_cases hexec with ⟨r, rfl⟩ | ⟨-, loc, rfl⟩ | ⟨-, word, l, rfl⟩ | ⟨-, word, a, l, rfl⟩ |
    ⟨-, word, a, d, l, -, rfl⟩
  · exact h
  · exact h
  · exact rfl
  · exact rfl
  · exact rfl

theorem exec_safe {i : Instr} {s t : State} (h : Safe s)
    (hregion : i.format = .decodeWord → s.phase = .sample ∧ ∃ a', regionOf s.mode a' = some i)
    (hexec : exec i s = .next t) : Safe t where
  images := (exec_sameSession hexec).memory.trans h.images
  send := exec_sendConsistent h.send (fun hi => (hregion hi).1) hexec
  loc := exec_locInRange h.loc (fun hi => (hregion hi).2) hexec
  active := exec_activeIsSelect h.active hexec

theorem Safe.withBus {s : State} (h : Safe s) (l : Lines) : Safe (s.withBus l) where
  images := h.images
  send := fun hpending => (State.get_congr (s.withBus_sameSession l) s.loc).trans (h.send hpending)
  loc := h.loc
  active := h.active

theorem Safe.withSchedule {s : State} (h : Safe s) (es : List Event) : Safe (s.withSchedule es) where
  images := h.images
  send := fun hpending => (State.get_congr (s.withSchedule_sameSession es) s.loc).trans (h.send hpending)
  loc := h.loc
  active := h.active

/-- Every move of the transport and the host ends a send: it may deliver the byte, and leaves a phase with nothing pending. -/
theorem Safe.endSend {s : State} (h : Safe s) (sent : List Byte) {p : Phase} (hp : p ≠ .sendPending) (l : Option Label) :
    Safe { s with sent := sent, phase := p, outcome := l } where
  images := h.images
  send := fun hpending => absurd hpending hp
  loc := h.loc
  active := h.active

theorem runEvent_safe {e : Event} {s t : State} (h : Safe s) (hmove : runEvent e s = .next t) : Safe t := by
  rcases runEvent_cases hmove with ⟨l, -, rfl⟩ | ⟨w, i, -, hdecode, hexec⟩ | ⟨-, -, rfl⟩ | ⟨b, -, -, rfl⟩ | ⟨b, -, -, rfl⟩ |
    ⟨f, w, i, hphase, hdecode, hexec, hcall⟩
  · exact h.withBus l
  · refine exec_safe (h.withBus _) (fun hi => ?_) hexec
    cases (format_of_sample hdecode).symm.trans hi
  · exact h.endSend (p := .sample) _ (by decide) _
  · rw [State.deliverIf_eq]
    exact h.endSend (p := .failed) _ (by decide) _
  · rw [State.deliverIf_eq]
    exact h.endSend (p := .stopped) _ (by decide) _
  · refine exec_safe h (fun hi => ⟨hphase, ?_⟩) hexec
    have hf : i.format = f := (encodeOfDecodeIsTheWord f w i hdecode).1
    rcases hcall with ⟨a, -, rfl, -⟩ | ⟨a', -, rfl, rfl⟩ | ⟨v, -, rfl, -⟩
    · cases hf.symm.trans hi
    · exact ⟨a', regionOf_of_decode hdecode⟩
    · cases hf.symm.trans hi

/-- Settles O50: the next move keeps the invariant, and taking it off the schedule does not touch it. -/
theorem stepKeepsSafe : Obligations.StepKeepsSafe := by
  intro s t h hstep
  rcases step_cases hstep with ⟨-, hpoll⟩ | ⟨e, rest, -, hmove⟩
  · exact runEvent_safe h hpoll
  · exact runEvent_safe (h.withSchedule rest) hmove

/-! SENT. -/

theorem State.deliverIf_sent (s : State) (delivered : Bool) :
    (s.deliverIf delivered).sent = s.sent ∨ (delivered = true ∧ (s.deliverIf delivered).sent = s.sent ++ [s.pendingByte]) := by
  cases delivered with
  | false => exact .inl rfl
  | true => exact .inr ⟨rfl, rfl⟩

/-- SENT grows by the pending byte alone, in an accept, or in a failure or a stop that delivers it (R31). -/
theorem runEvent_sent {e : Event} {s t : State} (h : runEvent e s = .next t) :
    t.sent = s.sent ∨ (t.sent = s.sent ++ [s.pendingByte] ∧ s.phase = .sendPending ∧
      (e = .accept ∨ e = .fail true ∨ e = .stop true)) := by
  rcases runEvent_cases h with ⟨l, -, rfl⟩ | ⟨w, i, -, -, hexec⟩ | ⟨he, hp, rfl⟩ | ⟨b, he, hp, rfl⟩ | ⟨b, he, -, rfl⟩ |
    ⟨f, w, i, -, -, hexec, -⟩
  · exact .inl rfl
  · exact .inl (exec_sent (s := s.withBus (w.lastBus s.bus)) hexec)
  · exact .inr ⟨rfl, hp, .inl he⟩
  · rcases s.deliverIf_sent b with hsent | ⟨rfl, hsent⟩
    · exact .inl hsent
    · exact .inr ⟨hsent, hp, .inr (.inl he)⟩
  · rcases s.deliverIf_sent (b && s.phase == .sendPending) with hsent | ⟨hb, hsent⟩
    · exact .inl hsent
    · rw [Bool.and_eq_true, beq_iff_eq] at hb
      obtain ⟨rfl, hp⟩ := hb
      exact .inr ⟨hsent, hp, .inr (.inr he)⟩
  · exact .inl (exec_sent hexec)

/-- Settles O49: the loop's own poll is no move of the transport or the host. -/
theorem sentGrowsByThePendingByteOnly : Obligations.SentGrowsByThePendingByteOnly := by
  intro s t h
  rcases step_cases h with ⟨-, hpoll⟩ | ⟨e, rest, hsched, hmove⟩
  · refine (runEvent_sent hpoll).imp_right fun hsent => ?_
    simp at hsent
  · refine (runEvent_sent hmove).imp_right fun ⟨hsent, hphase, he⟩ => ⟨hsent, hphase, rest, ?_⟩
    rcases he with rfl | rfl | rfl
    · exact .inl hsched
    · exact .inr (.inl hsched)
    · exact .inr (.inr hsched)

theorem readImage_eq_some {size : Nat} {cells : List Host.Cell} {k : Nat} {d : Byte} (h : readImage size cells k = some d) :
    k < size ∧ d = Cells.lookup cells k := by
  obtain ⟨hlt, hd⟩ := Option.ite_none_right_eq_some.mp h
  exact ⟨hlt, (Option.some.inj hd).symm⟩

/-- Settles O51: what a step sends was pending, so it is the byte at LOC, which lies in an image and in a mapped mode. -/
theorem safeStepsSendImageBytesOnly : Obligations.SafeStepsSendImageBytesOnly := by
  intro s t h hstep hne
  obtain ⟨hsent, hphase, -⟩ := (sentGrowsByThePendingByteOnly s t hstep).resolve_left hne
  have hget := h.send hphase
  have hrange := h.loc
  rw [LocInRange] at hrange
  cases hloc : s.loc with
  | rom k =>
    rw [hloc] at hget hrange
    exact ⟨hrange.imp And.left And.left, _, hsent, .inl ⟨k, rfl, readImage_eq_some hget⟩⟩
  | sram k =>
    rw [hloc] at hget hrange
    exact ⟨hrange, _, hsent, .inr ⟨k, rfl, readImage_eq_some hget⟩⟩
  | unmapped =>
    rw [hloc] at hget
    cases hget

end Sys2Proof.Machine

/-! Samples of one bus state, and every reading as a sample (spec/40_bus_sample.md R81 to R84). -/

namespace Sys2Proof.Machine

theorem sampleWord_atomic {s : State} (h : s.sampleMode = .atomic) (w : Window) :
    sampleWord s w = atomicWord s.ctrlActiveLow (w.busAt s.bus w.t0) := by
  rw [sampleWord, h]

/-- The bus at an instant is one of the iteration's states; past the end it is the last. -/
theorem busAt_mem (w : Window) (now : Lines) (t : Nat) : w.busAt now t ∈ now :: w.later := by
  rw [Window.busAt, Window.states]
  rcases Nat.lt_or_ge t (now :: w.later).length with h | h
  · rw [List.getD_eq_getElem _ _ h]
    exact List.getElem_mem h
  · rw [List.getD_eq_default _ _ h]
    exact List.getLastD_mem_cons

theorem atomicWord_addr (low : Bool) (l : Lines) {n : Nat} (h : n < 24) :
    (atomicWord low l).getLsbD n = l.addr.getLsbD n := by
  rw [atomicWord, assembleBits_self, snapshotWord_addr_getLsbD _ _ _ _ h]

/-- Settles O9: the bus state is the one at the sample's instant. -/
theorem atomicSampleIsOneBusState : Obligations.AtomicSampleIsOneBusState := by
  intro s w hmode
  rw [sampleWord_atomic hmode]
  exact ⟨w.busAt s.bus w.t0, busAt_mem w s.bus w.t0, snapshotWord_cs .., snapshotWord_wr .., snapshotWord_rd ..,
    fun n hn => atomicWord_addr _ _ hn⟩

/-- The window that reads address line N at `tA N`, RD at `t2`, and this WR bit. -/
def readingWindow (later : List Lines) (t0 t2 : Nat) (tA : Nat → Nat) (wr : Bool) : Window :=
  ⟨later, t0, (List.range 24).map tA, t2, wr⟩

/-- An instant that the rule allows is not raised. -/
theorem readingWindow_addrInstant {later : List Lines} {t0 t2 : Nat} {tA : Nat → Nat} {wr : Bool} {n : Nat} (hn : n < 24)
    (h : t0 ≤ tA n) : (readingWindow later t0 t2 tA wr).addrInstant n = tA n := by
  have hget : ((List.range 24).map tA).getD n t0 = tA n := by simp [hn]
  rw [Window.addrInstant, readingWindow, hget, Nat.max_eq_right h]

theorem readingWindow_rdInstant {later : List Lines} {t0 t2 : Nat} {tA : Nat → Nat} {wr : Bool}
    (h : ∀ n, n < 24 → t0 ≤ tA n ∧ tA n ≤ t2) (h02 : t0 ≤ t2) : (readingWindow later t0 t2 tA wr).rdInstant = t2 := by
  have hend : (readingWindow later t0 t2 tA wr).addrEnd ≤ t2 :=
    List.foldlRecOn (motive := (· ≤ t2)) _ _ h02 fun t ht n hn => by
      obtain ⟨hlow, hhigh⟩ := h n (List.mem_range.mp hn)
      rw [readingWindow_addrInstant (List.mem_range.mp hn) hlow]
      exact Nat.max_le.mpr ⟨ht, hhigh⟩
  exact Nat.max_eq_right hend

/-- Settles O11: the window that holds the instants reads each line at its own. -/
theorem everySequentialReadingIsAdmitted : Obligations.EverySequentialReadingIsAdmitted := by
  intro s later t0 t2 tA wr hmode htA h02
  refine ⟨readingWindow later t0 t2 tA wr, rfl, ?_⟩
  rw [sampleWord_sequential hmode]
  refine ⟨sequentialWord_cs .., fun n hn => ?addr, ?rd, snapshotWord_wr ..⟩
  case addr => rw [sequentialWord_addr _ _ _ hn, readingWindow_addrInstant hn (htA n hn).1]
  case rd =>
    rw [sequentialWord_rd, readingWindow_rdInstant htA h02]
    rfl

theorem busAt_of_later_nil {w : Window} (h : w.later = []) (now : Lines) (t : Nat) : w.busAt now t = now := by
  have hmem := busAt_mem w now t
  rw [h] at hmem
  exact List.mem_singleton.mp hmem

/-- The WR bit of a snapshot word is bit 25 alone. -/
theorem snapshotWord_getLsbD_of_ne {n : Nat} (h : n ≠ 25) (cs wr wr' rd : Bool) (a : Addr) :
    (snapshotWord cs wr rd a).getLsbD n = (snapshotWord cs wr' rd a).getLsbD n := by
  obtain hlow | rfl | rfl | hhigh : n < 24 ∨ n = 24 ∨ n = 26 ∨ 27 ≤ n := by omega
  · rw [snapshotWord_addr_getLsbD _ _ _ _ hlow, snapshotWord_addr_getLsbD _ _ _ _ hlow]
  · rw [snapshotWord_rd, snapshotWord_rd]
  · rw [snapshotWord_cs, snapshotWord_cs]
  · rw [BitVec.getLsbD_of_ge _ _ hhigh, BitVec.getLsbD_of_ge _ _ hhigh]

/-- Settles O12: with one bus state to read, the two words differ in their WR bit at most. -/
theorem stillBusSamplesAlike : Obligations.StillBusSamplesAlike := by
  intro s w n hstill hn
  rw [sampleWord_sequential rfl, sampleWord_atomic rfl]
  simp only [sequentialWord, atomicWord, busAt_of_later_nil hstill]
  exact snapshotWord_getLsbD_of_ne hn _ _ _ _ _

end Sys2Proof.Machine

/-! The rows of the decoder run on their own (spec/41_address_decoder.md R92 to R107). -/

namespace Sys2Proof.Machine

/-- The fold class of an address answers the address's fold. -/
theorem exec_foldClass {i : Instr} {a : Addr} (hi : i.format = .rawAddress) (ha : encode i = a.toNat)
    (hw : i.wellFormed = true) (s : State) : exec i s = returnFold (fold a) s := by
  cases i with
  | nofold80 b | nofoldLow b =>
    obtain rfl : b = a := BitVec.eq_of_toNat_eq ha
    obtain ⟨-, hbank⟩ := (bankIn_iff ..).mp hw
    rw [fold_of_not_above (by omega)]
    rfl
  | fold81 b | fold8283 b | fold8487 b | fold888F b | fold909F b | foldA0BF b | foldC0FF b =>
    obtain rfl : b = a := BitVec.eq_of_toNat_eq ha
    obtain ⟨hbank, -⟩ := (bankIn_iff ..).mp hw
    rw [fold_of_above (by omega)]
    rfl
  | _ => cases hi

/-- Settles O14: each class answers the fold, whose ranges are the fold's own. -/
theorem foldClassesReturnTheFoldedPair : Obligations.FoldClassesReturnTheFoldedPair := by
  intro a s i hi hw
  obtain ⟨hpair, hbank, hle, hrange, hoffset, -⟩ := foldTakesBanksAbove80 a
  have hclass : i.format = .rawAddress ∧ encode i = a.toNat := by
    simp only [List.mem_cons, List.not_mem_nil, or_false] at hi
    rcases hi with rfl | rfl | rfl | rfl | rfl | rfl | rfl | rfl | rfl <;> exact ⟨rfl, rfl⟩
  exact ⟨_, _, exec_foldClass hclass.1 hclass.2 hw s, hpair, hbank, hle, hrange, hoffset⟩

/-- Settles O17: each row writes Cart of its operand. -/
theorem loRomUpperRowsMapByCart : Obligations.LoRomUpperRowsMapByCart := by
  intro a' s i hi _
  simp only [List.mem_cons, List.not_mem_nil, or_false] at hi
  rcases hi with rfl | rfl | rfl <;> exact ⟨_, rfl, cart_toNat a', cart_le a'⟩

/-- Settles O20: the formula of the function, evaluated by each row. -/
theorem everyOffsetPolicyIsHeld : Obligations.EveryOffsetPolicyIsHeld := by
  intro f
  obtain ⟨p, hp⟩ := every_policy_expressible f
  refine ⟨p, fun s a' hs => ?_⟩
  simp only [← hp, ← hs]
  exact ⟨rfl, rfl, rfl⟩

/-- Settles O21: from bank 0x40 up the subtraction does not wrap, and bank 0x80 is the last. -/
theorem hiRomRowsMapTheFoldedAddress : Obligations.HiRomRowsMapTheFoldedAddress := by
  intro a' s i hw
  refine ⟨fun hi => ?same, fun hi => ?upper⟩
  case same =>
    simp only [List.mem_cons, List.not_mem_nil, or_false] at hi
    rcases hi with rfl | rfl <;> rfl
  case upper =>
    have hbank : 0x40 ≤ Reading.bank a'.toNat ∧ Reading.bank a'.toNat ≤ 0x80 ∧
        exec i s = .next { s with loc := .rom (hiUpper a') } := by
      simp only [List.mem_cons, List.not_mem_nil, or_false] at hi
      rcases hi with rfl | rfl
      all_goals
        obtain ⟨hlow, hhigh⟩ := (bankIn_iff ..).mp hw
        exact ⟨by omega, by omega, rfl⟩
    obtain ⟨hlow, hhigh, hexec⟩ := hbank
    have hnat := hiUpper_toNat a' (by rwa [bankNat_eq_bank])
    rw [Reading.bank_eq_div] at hlow hhigh
    exact ⟨hiUpper a', hexec, by omega, hnat, by omega⟩

/-- Settles O31: Get's bounds-checked byte, or none for Unmapped, in the result port. -/
theorem muxRowsAnswerBoundsCheckedBytes : Obligations.MuxRowsAnswerBoundsCheckedBytes :=
  fun k s => ⟨⟨_, rfl, get_rom s k⟩, ⟨_, rfl, get_sram s k⟩, rfl⟩

/-! The rows one after another (R90, R130). -/

/-- A region row answers the state with its location in LOC, in every phase (R90). -/
theorem exec_region {i : Instr} (hi : i.format = .decodeWord) (s : State) : ∃ loc, exec i s = .next (s.withLoc loc) := by
  cases i with
  | idle | activeNone | activeRead | activeWrite | activeReadWrite => cases hi
  | nofold80 | fold81 | fold8283 | fold8487 | fold888F | fold909F | foldA0BF | foldC0FF | nofoldLow | getUnmapped | getRom
  | getSram => cases hi
  | _ => exact ⟨_, rfl⟩

/-- The mux row of a location's word answers Get of the location. -/
theorem exec_muxRow (loc : Location) (s : State) :
    ∃ k, decode .location loc.word.toNat = .ok k ∧ exec k s = .next (s.withResult (.byte (s.get loc))) := by
  refine ⟨_, (everyLocationHasOneMuxRow loc).2, ?_⟩
  cases loc <;> rfl

/-- Every folded address has a region row, which writes the decode of the address. -/
theorem exec_regionRow_fold (s : State) (a : Addr) :
    ∃ j t, decode .decodeWord (regionWord s.mode (fold a).1).toNat = .ok j ∧ exec j s = .next t ∧ t.loc = s.decoded a := by
  have hbank : Reading.bank (fold a).1.toNat ≤ 0x80 := fold_bank_eq a ▸ fold_bank_le a
  have hdecode := (everyFoldedAddressHasOneRegion s.mode (fold a).1 hbank).2.2
  have hregion := regionOf_of_decode hdecode
  obtain ⟨loc, hexec⟩ := exec_region (regionOf_encode hregion).1 s
  refine ⟨_, _, hdecode, hexec, ?_⟩
  rw [exec_loc hexec, writtenLoc_regionOf hregion, Option.getD_some, State.decoded,
    decodeAddress_congr_fold (fold_fold a)]

/-- Settles O24: the fold row's pair goes to the region row, whose location goes to the mux row. -/
theorem operationMapRunsTheDecode : Obligations.OperationMapRunsTheDecode := by
  intro s a
  have hfold := (everyAddressHasOneFoldClass a).2
  obtain ⟨hi, ha, hw⟩ := encode_decode_rawAddress hfold
  obtain ⟨j, s2, hdecode, hexec, hloc⟩ := exec_regionRow_fold (s.withResult (.folded (fold a).1 (fold a).2)) a
  obtain ⟨k, hmux, hget⟩ := exec_muxRow s2.loc s2
  refine ⟨_, j, k, _, _, _, s2, _, hfold, exec_foldClass hi ha hw s, rfl, hdecode, hexec, hloc, hmux, hget, ?_⟩
  rw [State.withResult_result, State.get_congr (exec_sameSession hexec), hloc]
  exact congrArg Result.byte (State.get_congr ⟨rfl, rfl, rfl, rfl, rfl, rfl, rfl, rfl, rfl⟩ _)

end Sys2Proof.Machine

/-! Addresses that share a location (R115). -/

namespace Sys2Proof.Machine

/-- The LoROM regions that Cart maps unincremented. -/
def CartMapped (mp : MirrorPolicy) (x : Addr) : Prop :=
  ((Reading.fold x.toNat).2 < 0x40 ∧ 0x8000 ≤ Reading.offset (Reading.fold x.toNat).1) ∨
  (0x40 ≤ (Reading.fold x.toNat).2 ∧ (Reading.fold x.toNat).2 < 0x70 ∧ mp ≠ .incWholeBranch) ∨
  (0x70 ≤ (Reading.fold x.toNat).2 ∧ 0x8000 ≤ Reading.offset (Reading.fold x.toNat).1)

theorem loMiddle_of_ne {mp : MirrorPolicy} (h : mp ≠ .incWholeBranch) (a : Addr) : loMiddle mp a = cart a := by
  cases mp with
  | incMirrorOnly | noEffect => rfl
  | incWholeBranch => exact absurd rfl h

theorem decodeLo_of_cartMapped {mp : MirrorPolicy} {a : Addr} (h : CartMapped mp a) (sp : OffsetFormula) :
    decodeLo mp sp a = .rom (cart (fold a).1) := by
  rw [decodeLo_eq]
  rcases h with h | ⟨hlow, hhigh, hmp⟩ | h
  · rw [if_pos (by omega)]
  · rw [if_neg (by omega), if_pos hhigh, if_neg (by omega), loMiddle_of_ne hmp]
  · rw [if_neg (by omega), if_neg (by omega), if_neg (by omega)]

/-- Cart reads bits 20, 16 and 14..0 of the folded address. -/
theorem cart_fold_congr {a c : Addr} (h20 : (Reading.fold a.toNat).1.testBit 20 = (Reading.fold c.toNat).1.testBit 20)
    (h16 : (Reading.fold a.toNat).1.testBit 16 = (Reading.fold c.toNat).1.testBit 16)
    (hlow : (Reading.fold a.toNat).1 % 0x8000 = (Reading.fold c.toNat).1 % 0x8000) :
    cart (fold a).1 = cart (fold c).1 := by
  simp only [← fold_addr_toNat] at h20 h16 hlow
  apply BitVec.eq_of_toNat_eq
  rw [cart_toNat_eq_bits, cart_toNat_eq_bits, BitVec.getLsbD, BitVec.getLsbD, BitVec.getLsbD, BitVec.getLsbD, h20, h16, hlow]

/-- HiROM maps folded bank 0x40 + j where it maps folded bank j, j below 0x20. -/
theorem decodeHi_alias {a c : Addr} {j : Nat} (hj : j < 0x20) (ha : (Reading.fold a.toNat).2 = 0x40 + j)
    (hc : (Reading.fold c.toNat).2 = j)
    (hoffset : Reading.offset (Reading.fold a.toNat).1 = Reading.offset (Reading.fold c.toNat).1) (sp : OffsetFormula) :
    decodeHi sp a = .rom (fold c).1 ∧ decodeHi sp c = .rom (fold c).1 := by
  have hsame : hiUpper (fold a).1 = (fold c).1 := by
    have hbanka := fold_bank_eq a
    have hbankc := fold_bank_eq c
    rw [fold_bank_toNat, Reading.bank_eq_div] at hbanka hbankc
    rw [← fold_addr_toNat, ← fold_addr_toNat, Reading.offset_eq_mod, Reading.offset_eq_mod] at hoffset
    apply BitVec.eq_of_toNat_eq
    rw [hiUpper_fold_toNat (by omega)]
    omega
  rw [decodeHi_eq, decodeHi_eq, if_neg (by omega), if_neg (by omega), if_pos (by omega), hsame]
  exact ⟨rfl, rfl⟩

theorem decodeLo_zero_eq_sram_iff (mp : MirrorPolicy) (a : Addr) :
    decodeLo mp .zero a = .sram 0 ↔
      0x70 ≤ (Reading.fold a.toNat).2 ∧ Reading.offset (Reading.fold a.toNat).1 < 0x8000 := by
  rw [decodeLo_eq]
  split_ifs <;> simp <;> omega

theorem decodeHi_zero_eq_sram_iff (a : Addr) :
    decodeHi .zero a = .sram 0 ↔
      0x20 ≤ (Reading.fold a.toNat).2 ∧ (Reading.fold a.toNat).2 < 0x40 ∧
        Reading.offset (Reading.fold a.toNat).1 < 0x8000 := by
  rw [decodeHi_eq]
  split_ifs <;> simp <;> omega

/-- Under ZERO every SRAM location is at offset 0. -/
theorem sram_eq_zero_of_decode {m : Mode} {mp : MirrorPolicy} {a k : Addr} (h : decodeAddress m mp .zero a = .sram k) :
    k = 0 := by
  cases m with
  | loROM =>
    rw [decodeAddress, decodeLo_eq] at h
    split_ifs at h
    injection h with h
    exact h.symm
  | hiROM =>
    rw [decodeAddress, decodeHi_eq] at h
    split_ifs at h
    injection h with h
    exact h.symm
  | exLoROM | exHiROM => cases h

/-- Settles O30: Cart of folded addresses that agree on its bits, HiROM's subtraction, and ZERO's one offset. -/
theorem aliasedAddressesShareALocation : Obligations.AliasedAddressesShareALocation := by
  refine ⟨?lo, fun sp => ⟨rfl, rfl⟩, fun mp sp j a c hj ha hc hoffset => ?hi,
    fun mp a => ⟨decodeLo_zero_eq_sram_iff mp a, decodeHi_zero_eq_sram_iff a, fun m k => sram_eq_zero_of_decode⟩⟩
  case lo =>
    intro mp sp a c _ ha hc h20 h16 hlow
    have hsame := decodeLo_of_cartMapped ha sp
    rw [cart_fold_congr h20 h16 hlow] at hsame
    exact ⟨_, hsame, decodeLo_of_cartMapped hc sp⟩
  case hi => exact ⟨_, decodeHi_alias hj ha hc hoffset sp⟩

end Sys2Proof.Machine

/-! The bus classes: what an iteration labels, and what it leaves (spec/43_bus_monitor_loop.md R140 to R145, R173). -/

namespace Sys2Proof.Machine

/-! Each class as an iteration on its word. -/

theorem exec_idle (rd wr : Bool) (a : Addr) (s : State) :
    exec (.idle rd wr a) s = iterate (snapshotWord false wr rd a) (fun u => u.withOutcome .idle) s := rfl

theorem exec_activeNone (a : Addr) (s : State) :
    exec (.activeNone a) s = iterate (snapshotWord true false false a) (fun u => (u.runDecode a).withOutcome (.noRead a)) s :=
  rfl

theorem exec_activeWrite (a : Addr) (s : State) :
    exec (.activeWrite a) s =
      iterate (snapshotWord true true false a) (fun u => (u.runDecode a).withOutcome (.writeIgnored a)) s := rfl

theorem exec_read (wr : Bool) (a : Addr) (s : State) :
    exec (if wr then .activeReadWrite a else .activeRead a) s =
      iterate (snapshotWord true wr true a) (fun u => (u.runDecode a).runRead a) s := by
  cases wr <;> rfl

/-- Settles O33: the iteration is the sample and the label. -/
theorem idleIterationDoesNothing : Obligations.IdleIterationDoesNothing := by
  intro rd wr a s hphase
  refine ⟨_, snapshotWord_toNat .., ?_⟩
  rw [exec_idle, iterate_of_sample hphase, withSample_snapshotWord]
  rfl

/-- Settles O37: every bus class is an iteration, and the head of the iteration stops it. -/
theorem loopIteratesOnlyInSample : Obligations.LoopIteratesOnlyInSample := by
  intro i s hi
  obtain ⟨word, cls, -, hexec⟩ := exec_eq_iterate hi
  rw [hexec, iterate]
  refine ⟨fun hphase => ⟨_, whenSampling_sample _ hphase⟩, fun hphase => ?_, fun hphase => ?_, fun hphase => ?_⟩
  all_goals rw [whenSampling, hphase]

theorem decoded_eq_unmapped_iff (s : State) (a : Addr) :
    s.decoded a = .unmapped ↔ s.mode = .exLoROM ∨ s.mode = .exHiROM :=
  unmappedExactlyInExtendedModes.1 s.mode s.mirrorPolicy s.sramPolicy a

/-- The label of a read from `s` to `t`, the tests in R173's order. -/
def readLabel (s t : State) (a : Addr) : Label :=
  if s.mode = .exLoROM ∨ s.mode = .exHiROM then .unsupportedMode a s.mode
  else if t.loc = .unmapped then .unmapped a
  else if s.get t.loc = none then .outOfRange a t.loc
  else .sendIssued a t.loc t.pendingByte

/-- A read's label: only the extended modes decode to Unmapped, so their label comes first and UNMAPPED never; the rest goes by
whether a byte is found. -/
theorem exec_read_label {s : State} (hphase : s.phase = .sample) (wr : Bool) (a : Addr) :
    ∃ t, exec (if wr then .activeReadWrite a else .activeRead a) s = .next t ∧ t.outcome = some (readLabel s t a) ∧
      ((readLabel s t a).code = 3 ↔ t.phase = .sendPending) ∧ (readLabel s t a).code ≠ 4 := by
  obtain ⟨_, -, hexec⟩ := readIterationsIssueTheFoundByte wr a s hphase
  have hunmapped := decoded_eq_unmapped_iff s a
  cases hget : s.get (s.decoded a) with
  | some d =>
    rw [hget] at hexec
    have hloc : s.decoded a ≠ .unmapped := fun h => by
      rw [h, get_unmapped] at hget
      cases hget
    refine ⟨_, hexec, ?_⟩
    simp [readLabel, mt hunmapped.mpr hloc, hloc, hget, Label.code]
  | none =>
    rw [hget] at hexec
    refine ⟨_, hexec, ?_⟩
    by_cases hmode : s.mode = .exLoROM ∨ s.mode = .exHiROM
    · simp [readLabel, hmode, hunmapped.mpr hmode, Label.code, hphase]
    · simp [readLabel, hmode, mt hunmapped.mp hmode, hget, Label.code, hphase]

/-- Settles O36, by the control bits. -/
theorem outcomeFollowsTheOrderOfTests : Obligations.OutcomeFollowsTheOrderOfTests := by
  intro w i s hphase hdecode
  obtain ⟨cs, wr, rd, a, rfl⟩ : ∃ cs wr rd a, w = snapshotWord cs wr rd a := ⟨_, _, _, _, (snapshotWord_fields w).symm⟩
  rw [(everySampleIsOneOperation _).2] at hdecode
  simp only [snapshotWord_cs, snapshotWord_wr, snapshotWord_rd, snapshotWord_addr] at hdecode ⊢
  injection hdecode with hi
  subst hi
  cases cs with
  | false =>
    obtain ⟨_, -, hexec⟩ := idleIterationDoesNothing rd wr a s hphase
    exact ⟨_, _, hexec, rfl, rfl, by simp [Label.code, hphase], by simp [Label.code]⟩
  | true =>
    cases rd with
    | false =>
      obtain ⟨⟨_, -, hnone⟩, _, -, hwrite⟩ := unreadIterationsOnlyDecode a s hphase
      cases wr with
      | false => exact ⟨_, _, hnone, rfl, rfl, by simp [Label.code, hphase], by simp [Label.code]⟩
      | true => exact ⟨_, _, hwrite, rfl, rfl, by simp [Label.code, hphase], by simp [Label.code]⟩
    | true =>
      obtain ⟨t, hexec, houtcome, hsend, hunmapped⟩ := exec_read_label hphase wr a
      have hi : (if wr = false then Instr.activeRead a else .activeReadWrite a)
          = if wr then .activeReadWrite a else .activeRead a := by cases wr <;> rfl
      exact ⟨t, _, hi ▸ hexec, houtcome, rfl, hsend, hunmapped⟩

/-! Frames. -/

/-- No operation moves what the environment holds. -/
theorem exec_sameEnvironment {i : Instr} {s t : State} (h : exec i s = .next t) : SameEnvironment s t := by
  rcases exec_cases h with ⟨_, rfl⟩ | ⟨_, _, rfl⟩ | ⟨_, _, _, rfl⟩ | ⟨_, _, _, _, rfl⟩ | ⟨_, _, _, _, _, _, rfl⟩ <;>
    exact ⟨rfl, rfl⟩

/-- An iteration writes no result port. -/
theorem IterationClass.result {cls : State → State} (h : IterationClass cls) (s : State) : (cls s).result = s.result := by
  cases h with
  | label l | unread a l => rfl
  | read a =>
    rcases runRead_cases (s.runDecode a) a with ⟨d, -, he⟩ | ⟨-, he⟩
    · exact (congrArg State.result he :)
    · exact (congrArg State.result he :)

/-- A read that finds no byte leaves the send alone (R143). -/
theorem exec_read_send_of_none {wr : Bool} {a : Addr} {s t : State} (hget : s.get (s.decoded a) = none)
    (h : exec (if wr then .activeReadWrite a else .activeRead a) s = .next t) :
    t.phase = s.phase ∧ t.pendingByte = s.pendingByte := by
  obtain ⟨-, rfl⟩ := iterate_next ((exec_read wr a s).symm.trans h)
  rw [runRead_of_get_none (s := (s.withSample _).runDecode a) hget]
  exact ⟨rfl, rfl⟩

/-- A read that finds a byte has it pending (R143). -/
theorem exec_read_of_some {wr : Bool} {a : Addr} {d : Byte} {s : State} (hphase : s.phase = .sample)
    (hget : s.get (s.decoded a) = some d) :
    ∃ t, exec (if wr then .activeReadWrite a else .activeRead a) s = .next t ∧ t.phase = .sendPending ∧ t.pendingByte = d := by
  refine ⟨_, exec_read_of_sample hphase wr a, ?_⟩
  rw [runRead_of_get_some (s := (s.withSample _).runDecode a) hget]
  exact ⟨rfl, rfl⟩

/-- Settles O53: an iteration is its sample, then a label, a decode or a read. -/
theorem busClassFrame : Obligations.BusClassFrame := by
  intro rd wr a i s t hi h
  have hformat : i.format = .snapshot := by
    simp only [List.mem_cons, List.not_mem_nil, or_false] at hi
    rcases hi with rfl | rfl | rfl | rfl | rfl <;> rfl
  have hsession := exec_sameSession h
  have hresult : t.result = s.result := by
    obtain ⟨word, cls, hcls, hexec⟩ := exec_eq_iterate hformat
    obtain ⟨-, rfl⟩ := iterate_next ((hexec s).symm.trans h)
    exact hcls.result _
  refine ⟨hsession, hsession.sameBytes, exec_sameEnvironment h, exec_sent h, hresult, fun hidle => ?loc, fun hquiet => ?send⟩
  case loc =>
    subst hidle
    exact exec_loc h
  case send =>
    simp only [List.mem_cons, List.not_mem_nil, or_false] at hi
    rcases hi with rfl | rfl | rfl | rfl | rfl
    · obtain ⟨-, rfl⟩ := iterate_next ((exec_idle ..).symm.trans h)
      exact ⟨rfl, rfl⟩
    · obtain ⟨-, rfl⟩ := iterate_next ((exec_activeNone ..).symm.trans h)
      exact ⟨rfl, rfl⟩
    · exact exec_read_send_of_none (wr := false) (hquiet.resolve_left (by simp)) h
    · obtain ⟨-, rfl⟩ := iterate_next ((exec_activeWrite ..).symm.trans h)
      exact ⟨rfl, rfl⟩
    · exact exec_read_send_of_none (wr := true) (hquiet.resolve_left (by simp)) h

/-- A fold class or a mux select answers the state with its value in the result port (R92, R130). -/
theorem exec_fold_or_mux {i : Instr} (hi : i.format = .rawAddress ∨ i.format = .location) (s : State) :
    ∃ r, exec i s = .next (s.withResult r) := by
  cases i with
  | nofold80 | fold81 | fold8283 | fold8487 | fold888F | fold909F | foldA0BF | foldC0FF | nofoldLow | getUnmapped | getRom
  | getSram => exact ⟨_, rfl⟩
  | _ => rcases hi with hi | hi <;> cases hi

/-- Settles O54: a value in the result port touches nothing else. -/
theorem foldAndMuxFrame : Obligations.FoldAndMuxFrame := by
  intro i s t hi h
  obtain ⟨r, hexec⟩ := exec_fold_or_mux hi s
  have hsession := exec_sameSession h
  cases hexec.symm.trans h
  exact ⟨hsession, hsession.sameBytes, ⟨rfl, rfl⟩, ⟨rfl, rfl, rfl, rfl, rfl, rfl, rfl, rfl⟩⟩

/-- Settles O55: a location in LOC touches nothing else. -/
theorem regionFrame : Obligations.RegionFrame := by
  intro i s t hi h
  obtain ⟨loc, hexec⟩ := exec_region hi s
  have hsession := exec_sameSession h
  cases hexec.symm.trans h
  exact ⟨hsession, hsession.sameBytes, ⟨rfl, rfl⟩, ⟨rfl, rfl, rfl, rfl, rfl, rfl, rfl, rfl⟩⟩

end Sys2Proof.Machine

/-! Steps and runs (spec/43_bus_monitor_loop.md R150). -/

namespace Sys2Proof.Machine

theorem step_console {s : State} {l : Lines} {rest : List Event} (h : s.schedule = .console l :: rest) :
    step s = .next { s with bus := l, schedule := rest } := step_of_move h

/-- Settles O41: the end leaves the console's move alone, and that move is always there. -/
theorem onlyTheConsoleStepsAfterTheEnd : Obligations.OnlyTheConsoleStepsAfterTheEnd := by
  intro s hend
  exact ⟨fun t => step_of_ended hend, fun l rest => step_console⟩

theorem runWord_of_decode {f : Format} {w : Nat} {i : Instr} (h : decode f w = .ok i) (s : State) :
    runWord f w s = exec i s := by
  rw [runWord, h]

theorem runUnit_of_decode {f : Format} {w : Nat} {i : Instr} (h : decode f w = .ok i) {s : State} (hs : s.phase = .sample) :
    runUnit f w s = exec i s :=
  (whenSampling_sample _ hs).trans (runWord_of_decode h s)

/-- Settles O43: each of the loop's moves runs the word of its format. -/
theorem stepRunsTheDecodedOperation : Obligations.StepRunsTheDecodedOperation := by
  intro s i rest
  refine ⟨fun w hsched hdecode => ?loop, fun hsched hdecode => ?poll, fun hphase =>
    ⟨fun a hsched hdecode => ?fold, fun a' hsched hdecode => ?region, fun w hsched hdecode => ?mux⟩⟩
  case loop => exact (step_of_move hsched).trans (runWord_of_decode hdecode _)
  case poll =>
    rw [step, nextMove, hsched]
    exact runWord_of_decode hdecode _
  case fold => exact (step_of_move hsched).trans (runUnit_of_decode hdecode (s := s.withSchedule rest) hphase)
  case region => exact (step_of_move hsched).trans (runUnit_of_decode hdecode (s := s.withSchedule rest) hphase)
  case mux => exact (step_of_move hsched).trans (runUnit_of_decode hdecode (s := s.withSchedule rest) hphase)

/-- With a word on the bus held still and the loop's move next, the step runs the word's operation, in both sampling modes. -/
theorem step_of_heldWord {s : State} {v : SnapshotWord} {i : Instr} {rest : List Event}
    (hbus : s.bus = linesFor s.ctrlActiveLow v) (hsched : s.schedule = .loop (Window.still (v.getLsbD 25)) :: rest)
    (hdecode : decode .snapshot v.toNat = .ok i) : step s = exec i { s with schedule := rest } :=
  (stepRunsTheDecodedOperation s i rest).1 _ hsched (by rw [sampleWord_still_linesFor hbus, hdecode])

theorem toNat_ofNat_of_decode {f : Format} {w : Nat} {i : Instr} (h : decode f w = .ok i) :
    (BitVec.ofNat f.width w).toNat = w :=
  (BitVec.toNat_ofNat ..).trans (Nat.mod_eq_of_lt (lt_of_decode h))

/-- A placed word is the next step's, run from a state ready to sample with the images and SENT as they were. -/
theorem step_placeWord (s : State) {nbits w : Nat} {i : Instr} (h : decode (tableFormat nbits w) w = .ok i) :
    ∃ s1 : State, s1.phase = .sample ∧ s1.schedule = s.schedule ∧ SameBytes s s1 ∧ s1.sent = s.sent ∧
      step (placeWord s nbits w) = exec i s1 := by
  have hbytes : ∀ (m : Mode) (l : Lines), SameBytes s { s with mode := m, phase := .sample, bus := l } :=
    fun _ _ => ⟨fun _ => rfl, fun _ => rfl⟩
  rw [placeWord]
  cases hf : tableFormat nbits w with
  | snapshot =>
    rw [hf] at h
    refine ⟨{ s with phase := .sample, bus := linesFor s.ctrlActiveLow (BitVec.ofNat 27 w) }, rfl, rfl, hbytes s.mode _, rfl, ?_⟩
    exact step_of_heldWord (v := BitVec.ofNat 27 w) rfl rfl ((congrArg _ (toNat_ofNat_of_decode h)).trans h)
  | rawAddress =>
    rw [hf] at h
    refine ⟨{ s with phase := .sample }, rfl, rfl, hbytes s.mode s.bus, rfl, ?_⟩
    refine ((stepRunsTheDecodedOperation _ i s.schedule).2.2 rfl).1 (BitVec.ofNat 24 w) rfl ?_
    exact (congrArg _ (toNat_ofNat_of_decode h)).trans h
  | decodeWord =>
    rw [hf] at h
    refine ⟨{ s with mode := Mode.ofCode (BitVec.ofNat 2 (w >>> 24)), phase := .sample }, rfl, rfl, hbytes _ s.bus, rfl, ?_⟩
    refine ((stepRunsTheDecodedOperation _ i s.schedule).2.2 rfl).2.1 (BitVec.ofNat 24 w) rfl ?_
    exact (congrArg _ (regionWord_ofNat (lt_of_decode h))).trans h
  | location =>
    rw [hf] at h
    refine ⟨{ s with phase := .sample }, rfl, rfl, hbytes s.mode s.bus, rfl, ?_⟩
    refine ((stepRunsTheDecodedOperation _ i s.schedule).2.2 rfl).2.2 (BitVec.ofNat 26 w) rfl ?_
    exact (congrArg _ (toNat_ofNat_of_decode h)).trans h

/-- Settles O44: the word is placed in the format it decodes in, and in SAMPLE every operation completes. -/
theorem placedWordRunsNext : Obligations.PlacedWordRunsNext := by
  intro s nbits w i h
  have hdecode : decode (tableFormat nbits (w % 2 ^ nbits)) (w % 2 ^ nbits) = .ok i := by
    rw [decodeTableWord] at h
    cases hd : decode (tableFormat nbits (w % 2 ^ nbits)) (w % 2 ^ nbits) with
    | error e =>
      rw [hd] at h
      cases h
    | ok j =>
      rw [hd] at h
      cases h
      rfl
  obtain ⟨s1, hphase, hsched, hbytes, hsent, hstep⟩ := step_placeWord s hdecode
  obtain ⟨t, ht⟩ := exec_next_of_sample i hphase
  exact ⟨s1, hphase, hsched, hbytes, hsent, hstep, t, hstep.trans ht⟩

/-! Reads held on the bus. -/

theorem run_succ (k : Nat) {s t : State} (h : step s = .next t) :
    Host.Core.run Sys2Proof.core (k + 1) s = Host.Core.run Sys2Proof.core k t := by
  have hcore : Sys2Proof.core.step s = .next t := h
  simp only [Host.Core.run, hcore]

theorem sampleWord_congr {s t : State} (h : SameSession s t) (hbus : t.bus = s.bus) (w : Window) :
    sampleWord t w = sampleWord s w := by
  rw [sampleWord, sampleWord, h.sampleMode, h.ctrlActiveLow, hbus]

/-- With RD asserted the row is the read row of the WR bit. -/
theorem decode_readWord (wr : Bool) (a : Addr) :
    decode .snapshot (snapshotWord true wr true a).toNat = .ok (if wr then .activeReadWrite a else .activeRead a) := by
  cases wr with
  | false => exact decode_encode_snapshot (i := .activeRead a) rfl
  | true => exact decode_encode_snapshot (i := .activeReadWrite a) rfl

theorem decode_unreadWord (wr : Bool) (a : Addr) :
    decode .snapshot (snapshotWord true wr false a).toNat = .ok (if wr then .activeWrite a else .activeNone a) := by
  cases wr with
  | false => exact decode_encode_snapshot (i := .activeNone a) rfl
  | true => exact decode_encode_snapshot (i := .activeWrite a) rfl

/-- A read that finds a byte, and the accept of the byte: SENT gains it, and the loop is ready again on the same bus. -/
theorem run_read_accept {s : State} {v wr : Bool} {a : Addr} {d : Byte} {rest : List Event} (hphase : s.phase = .sample)
    (hword : sampleWord s (Window.still v) = snapshotWord true wr true a) (hget : s.get (s.decoded a) = some d)
    (hsched : s.schedule = .loop (Window.still v) :: .accept :: rest) :
    ∃ t, Host.Core.run Sys2Proof.core 2 s = .next t ∧ SameSession s t ∧ t.bus = s.bus ∧ t.sent = s.sent ++ [d] ∧
      t.phase = .sample ∧ t.schedule = rest := by
  have hstep := (stepRunsTheDecodedOperation s _ _).1 _ hsched (by rw [hword, decode_readWord])
  obtain ⟨u, hexec, hpending, rfl⟩ :=
    exec_read_of_some (wr := wr) (s := s.withSchedule (.accept :: rest)) hphase
      (((s.withSchedule_sameSession _).get_decoded_eq a).trans hget)
  have hsession := (s.withSchedule_sameSession _).trans (exec_sameSession hexec)
  obtain ⟨hbus, hnext⟩ := exec_sameEnvironment hexec
  have haccept := acceptAppendsThePendingByte u rest hnext hpending
  refine ⟨_, (run_succ 1 (hstep.trans hexec)).trans (run_succ 0 haccept), ?session, hbus, ?sent, rfl, rfl⟩
  case session => exact hsession.trans ⟨rfl, rfl, rfl, rfl, rfl, rfl, rfl, rfl, rfl⟩
  case sent => exact congrArg (· ++ [u.pendingByte]) (exec_sent (s := s.withSchedule (.accept :: rest)) hexec)

/-- Settles O46, by induction on the pairs: after each the same session reads the same bus again. -/
theorem heldReadRepeatsTheSend : Obligations.HeldReadRepeatsTheSend := by
  intro n
  induction n with
  | zero => exact fun s _ _ _ hphase _ _ _ => ⟨s, rfl, (List.append_nil s.sent).symm, hphase⟩
  | succ n ih =>
    intro s wr a d hphase hword hget hsched
    rw [List.replicate_succ, List.flatten_cons] at hsched
    obtain ⟨t, hrun, hsession, hbus, hsent, hready, hnext⟩ := run_read_accept hphase hword hget hsched
    obtain ⟨u, hruns, hsents, hend⟩ := ih t wr a d hready ((sampleWord_congr hsession hbus _).trans hword)
      ((hsession.get_decoded_eq a).trans hget) hnext
    refine ⟨u, ?run, ?sent, hend⟩
    case run => rw [Nat.mul_succ, Nat.add_comm, run_add 2 (2 * n) hrun, hruns]
    case sent => rw [hsents, hsent, List.append_assoc, List.replicate_succ, List.singleton_append]

theorem assertedBit_eq_bne (low level : Bool) : assertedBit low level = (level != low) := by
  cases low <;> cases level <;> rfl

/-- An ATOMIC sample of a bus held still is the bus, its control lines by polarity. -/
theorem sampleWord_still_atomic {s : State} (h : s.sampleMode = .atomic) (v : Bool) :
    sampleWord s (Window.still v) =
      snapshotWord (s.bus.cs != s.ctrlActiveLow) (s.bus.wr != s.ctrlActiveLow) (s.bus.rd != s.ctrlActiveLow) s.bus.addr := by
  rw [sampleWord_atomic h, busAt_still, atomicWord, assembleBits_self, assertedBit_eq_bne, assertedBit_eq_bne,
    assertedBit_eq_bne]

/-- The console's move in an ATOMIC session: an iteration on the bus held still then reads the console's lines. -/
theorem step_console_atomic {s : State} {l : Lines} {rest : List Event} (hsched : s.schedule = .console l :: rest)
    (hatomic : s.sampleMode = .atomic) (v : Bool) :
    ∃ u, step s = .next u ∧ SameSession s u ∧ u.phase = s.phase ∧ u.sent = s.sent ∧ u.schedule = rest ∧
      sampleWord u (Window.still v) =
        snapshotWord (l.cs != s.ctrlActiveLow) (l.wr != s.ctrlActiveLow) (l.rd != s.ctrlActiveLow) l.addr :=
  ⟨_, step_console hsched, ⟨rfl, rfl, rfl, rfl, rfl, rfl, rfl, rfl, rfl⟩, rfl, rfl, rfl,
    sampleWord_still_atomic (s := { s with bus := l, schedule := rest }) hatomic v⟩

/-- With RD deasserted an iteration sends nothing and is ready again (R142, R144). -/
theorem run_unread {s : State} {v wr : Bool} {a : Addr} {rest : List Event} (hphase : s.phase = .sample)
    (hword : sampleWord s (Window.still v) = snapshotWord true wr false a)
    (hsched : s.schedule = .loop (Window.still v) :: rest) :
    ∃ t, Host.Core.run Sys2Proof.core 1 s = .next t ∧ t.sent = s.sent ∧ t.phase = .sample ∧ t.schedule = rest := by
  have hstep := (stepRunsTheDecodedOperation s _ _).1 _ hsched (by rw [hword, decode_unreadWord])
  obtain ⟨⟨_, -, hnone⟩, _, -, hwrite⟩ := unreadIterationsOnlyDecode a (s.withSchedule rest) hphase
  cases wr with
  | false => exact ⟨_, run_succ 0 (hstep.trans hnone), rfl, hphase, rfl⟩
  | true => exact ⟨_, run_succ 0 (hstep.trans hwrite), rfl, hphase, rfl⟩

/-- In LoROM 0x008000 is the first byte of the ROM image. -/
theorem get_decoded_008000 {s : State} (hmode : s.mode = .loROM) (hsize : 0 < s.romSize) :
    s.get (s.decoded 0x008000) = some (Cells.lookup s.rom 0) := by
  have hloc : s.decoded 0x008000 = .rom 0 := by
    rw [State.decoded, hmode]
    rfl
  rw [hloc, get_rom]
  exact if_pos hsize

/-- Settles O47: the console's move, then the read and its accept, or the iteration that reads nothing. -/
theorem readOf008000SendsTheFirstRomByte : Obligations.ReadOf008000SendsTheFirstRomByte := by
  intro s l wr rest hmode hsize hatomic hphase haddr hcs
  refine ⟨fun hrd hsched => ?read, fun hrd hsched => ?unread⟩
  case read =>
    obtain ⟨u, hconsole, hsession, hready, hkept, hnext, hword⟩ := step_console_atomic hsched hatomic wr
    rw [hcs, hrd, haddr] at hword
    have hget := get_decoded_008000 hmode (by omega)
    obtain ⟨t, hrun, -, -, hsent, hend, hrest⟩ :=
      run_read_accept (hready.trans hphase) hword ((hsession.get_decoded_eq _).trans hget) hnext
    exact ⟨t, (run_succ 2 hconsole).trans hrun, hsent.trans (by rw [hkept]), hend, hrest⟩
  case unread =>
    obtain ⟨u, hconsole, -, hready, hkept, hnext, hword⟩ := step_console_atomic hsched hatomic wr
    rw [hcs, hrd, haddr] at hword
    obtain ⟨t, hrun, hsent, hend, hrest⟩ := run_unread (hready.trans hphase) hword hnext
    exact ⟨t, (run_succ 1 hconsole).trans hrun, hsent.trans hkept, hend, hrest⟩

/-! The bus script (R73). -/

theorem linesFor_snapshotWord (low cs wr rd : Bool) (a : Addr) :
    linesFor low (snapshotWord cs wr rd a) = ⟨a, assertedBit low rd, assertedBit low wr, assertedBit low cs⟩ := by
  rw [linesFor, snapshotWord_addr, snapshotWord_rd, snapshotWord_wr, snapshotWord_cs]

theorem assertedBit_bne (low b : Bool) : (assertedBit low b != low) = b := by
  rw [← assertedBit_eq_bne, assertedBit_involutive]

/-- Settles O58: the console's lines sample to the statement's word in both sampling modes. -/
theorem scriptCycleRunsItsWord : Obligations.ScriptCycleRunsItsWord := by
  intro s cs rd wr a rest hphase hsched
  obtain ⟨l, hl⟩ : ∃ l, l = linesFor s.ctrlActiveLow (snapshotWord cs wr rd a) := ⟨_, rfl⟩
  have hconsole : s.schedule = .console l :: .loop (Window.still wr) :: rest := by rw [hsched, hl]; rfl
  have hdecode := (everySampleIsOneOperation (snapshotWord cs wr rd a)).2
  have hstep := step_of_heldWord (s := { s with bus := l, schedule := .loop (Window.still wr) :: rest }) hl
    (by rw [snapshotWord_wr]) hdecode
  obtain ⟨t, hexec⟩ := exec_next_of_sample _ (s := { s with bus := l, schedule := rest }) hphase
  refine ⟨l, _, t, _, ?addrLines, ?csLine, ?rdLine, ?wrLine, step_console hconsole, ?session, ?loop, rfl, ?word,
    hstep, hstep.trans hexec⟩
  case addrLines => rw [hl, linesFor_snapshotWord]
  case csLine => rw [hl, linesFor_snapshotWord, assertedBit_bne]
  case rdLine => rw [hl, linesFor_snapshotWord, assertedBit_bne]
  case wrLine => rw [hl, linesFor_snapshotWord, assertedBit_bne]
  case session => exact ⟨rfl, rfl, rfl, rfl, rfl, rfl, rfl, rfl, rfl⟩
  case loop => exact ⟨rfl, rfl, rfl, rfl, rfl, rfl, rfl, rfl⟩
  case word => rw [← snapshotWord_toNat, hdecode]

end Sys2Proof.Machine

/-! Session start (spec/70_reset_and_hazards.md R190 to R193). -/

namespace Sys2Proof.Machine

/-- The elements of the configuration that have no default are supplied, with these values (R191). -/
structure LaunchArgs.Supplies (x : LaunchArgs) (file : List Byte) (cls : Byte) (m : Mode) (low : Bool) : Prop where
  romFile : x.romFile = some file
  sramSizeClass : x.sramSizeClass = some cls
  mode : x.mode = some m
  ctrlActiveLow : x.ctrlActiveLow = some low

/-- Some element of the configuration that has no default is missing. -/
def LaunchArgs.Incomplete (x : LaunchArgs) : Prop :=
  x.romFile = none ∨ x.sramSizeClass = none ∨ x.mode = none ∨ x.ctrlActiveLow = none

/-- The first state of a complete launch, over the bytes of its save. -/
def LaunchArgs.session (x : LaunchArgs) (file : List Byte) (cls : Byte) (m : Mode) (low : Bool) (save : List Byte) : State :=
  sessionState (stripSmc x.smcHeader file) cls save m x.mirrorPolicySet x.sramPolicySet x.sampleModeSet low x.bus x.schedule

theorem LaunchArgs.incomplete_or_supplies (x : LaunchArgs) :
    x.Incomplete ∨ ∃ file cls m low, x.Supplies file cls m low := by
  cases hrom : x.romFile with
  | none => exact .inl (.inl hrom)
  | some file =>
    cases hcls : x.sramSizeClass with
    | none => exact .inl (.inr (.inl hcls))
    | some cls =>
      cases hmode : x.mode with
      | none => exact .inl (.inr (.inr (.inl hmode)))
      | some m =>
        cases hlow : x.ctrlActiveLow with
        | none => exact .inl (.inr (.inr (.inr hlow)))
        | some low => exact .inr ⟨file, cls, m, low, hrom, hcls, hmode, hlow⟩

section
variable {x : LaunchArgs} {file : List Byte} {cls : Byte} {m : Mode} {low : Bool}

theorem LaunchArgs.Supplies.not_incomplete (h : x.Supplies file cls m low) : ¬ x.Incomplete := by
  simp [LaunchArgs.Incomplete, h.romFile, h.sramSizeClass, h.mode, h.ctrlActiveLow]

theorem launch_of_incomplete (h : x.Incomplete) : launch x = .refused .incompleteConfiguration := by
  unfold launch
  split
  · next hrom hcls hmode hlow => exact absurd h (LaunchArgs.Supplies.not_incomplete ⟨hrom, hcls, hmode, hlow⟩)
  · rfl

/-- With no save SRAM is all zero (R192). -/
theorem launch_of_no_save (h : x.Supplies file cls m low) (hsave : x.save = none) :
    launch x = .next (x.session file cls m low []) := by
  simp only [launch, h.romFile, h.sramSizeClass, h.mode, h.ctrlActiveLow, hsave, LaunchArgs.session]

theorem launch_of_save (h : x.Supplies file cls m low) {save : List Byte} (hsave : x.save = some save) :
    launch x = if save.length = sramBytes cls then .next (x.session file cls m low save) else .refused .saveLengthMismatch := by
  simp only [launch, h.romFile, h.sramSizeClass, h.mode, h.ctrlActiveLow, hsave, LaunchArgs.session]

end

/-- What a launch can do (R191, R192, I13, I14). -/
theorem launch_cases (x : LaunchArgs) :
    (x.Incomplete ∧ launch x = .refused .incompleteConfiguration) ∨
    ∃ file cls m low, x.Supplies file cls m low ∧
      ((∃ save, save.length ≤ sramBytes cls ∧ launch x = .next (x.session file cls m low save)) ∨
       (∃ save, x.save = some save ∧ save.length ≠ sramBytes cls ∧ launch x = .refused .saveLengthMismatch)) := by
  rcases x.incomplete_or_supplies with h | ⟨file, cls, m, low, h⟩
  · exact .inl ⟨h, launch_of_incomplete h⟩
  · refine .inr ⟨file, cls, m, low, h, ?_⟩
    cases hsave : x.save with
    | none => exact .inl ⟨[], Nat.zero_le _, launch_of_no_save h hsave⟩
    | some save =>
      by_cases hlen : save.length = sramBytes cls
      · exact .inl ⟨save, hlen.le, (launch_of_save h hsave).trans (if_pos hlen)⟩
      · exact .inr ⟨save, rfl, hlen, (launch_of_save h hsave).trans (if_neg hlen)⟩

/-- SRAM_SIZE = 0x400 * 2^SRAM_SIZE_CLASS (R24). -/
theorem sramBytes_eq (cls : Byte) : sramBytes cls = 0x400 * 2 ^ cls.toNat := Nat.shiftLeft_eq _ _

/-- Settles O57: a launch is refused in two ways, each for its own cause. -/
theorem launchRefusesBrokenPremises : Obligations.LaunchRefusesBrokenPremises := by
  intro x
  simp only [← sramBytes_eq]
  refine ⟨⟨fun h => ?incomplete, launch_of_incomplete⟩, fun file cls m low save hrom hcls hmode hlow hsave hlen => ?mismatch,
    fun e he => ?only⟩
  case incomplete =>
    rcases launch_cases x with ⟨hinc, -⟩ | ⟨file, cls, m, low, -, ⟨save, -, hnext⟩ | ⟨save, -, -, hrefused⟩⟩
    · exact hinc
    · cases h.symm.trans hnext
    · cases h.symm.trans hrefused
  case mismatch => exact (launch_of_save ⟨hrom, hcls, hmode, hlow⟩ hsave).trans (if_neg hlen)
  case only =>
    rcases launch_cases x with ⟨-, hinc⟩ | ⟨file, cls, m, low, hsupplied, ⟨save, -, hnext⟩ | ⟨save, hsave, hlen, hrefused⟩⟩
    · cases he.symm.trans hinc
      exact .inl rfl
    · cases he.symm.trans hnext
    · cases he.symm.trans hrefused
      exact .inr ⟨rfl, cls, save, hsupplied.sramSizeClass, hsave, hlen⟩

/-- The first state of a session meets its invariant: the load-time accessor makes canonical images (R134), and the latches are
those of reset. -/
theorem LaunchArgs.session_safe (x : LaunchArgs) (file : List Byte) {cls : Byte} (m : Mode) (low : Bool) {save : List Byte}
    (h : save.length ≤ sramBytes cls) : Safe (x.session file cls m low save) where
  images := by
    have hrom := Cells.ofBytes_below (stripSmc x.smcHeader file)
    have hsram : Cells.below (sramBytes cls) (Cells.ofBytes save) = true := Cells.ofBytesFrom_below save 0 _ (by omega)
    simp only [Memory.wf, LaunchArgs.session, sessionState, State.sramSize, Cells.ofBytes_wf, hrom, hsram, Bool.and_self]
  send := sendConsistent_of_sample rfl
  loc := trivial
  active := show false = (0 : SnapshotWord).getLsbD 26 by decide

theorem reset_safe : Safe State.reset where
  images := by decide
  send := sendConsistent_of_sample rfl
  loc := trivial
  active := show false = (0 : SnapshotWord).getLsbD 26 by decide

/-- Settles O52: a launch that answers a state answers the session's first. -/
theorem everySessionStartsSafe : Obligations.EverySessionStartsSafe := by
  refine ⟨⟨reset_safe, rfl, rfl, rfl⟩, fun x s hlaunch => ?_⟩
  rcases launch_cases x with ⟨-, h⟩ | ⟨file, cls, m, low, -, ⟨save, hlen, h⟩ | ⟨save, -, -, h⟩⟩
  · cases hlaunch.symm.trans h
  · cases hlaunch.symm.trans h
    exact ⟨x.session_safe file m low hlen, rfl, rfl, rfl⟩
  · cases hlaunch.symm.trans h

/-! The images at session start. -/

/-- A byte sequence read as an image of its own length is the sequence. -/
theorem readImage_ofBytes (bytes : List Byte) (k : Nat) : readImage bytes.length (Cells.ofBytes bytes) k = bytes[k]? := by
  rcases Nat.lt_or_ge k bytes.length with h | h
  · rw [readImage_of_lt h, Cells.lookup_ofBytes, List.getD_eq_getElem _ _ h, List.getElem?_eq_getElem h]
  · rw [readImage_of_le h, List.getElem?_eq_none h]

theorem stripSmc_length (smcHeader : Bool) (file : List Byte) :
    (stripSmc smcHeader file).length = if smcHeader then file.length - 512 else file.length := by
  cases smcHeader with
  | false => rfl
  | true => exact List.length_drop

theorem getElem?_stripSmc (smcHeader : Bool) (file : List Byte) (k : Nat) :
    (stripSmc smcHeader file)[k]? = file[k + if smcHeader then 512 else 0]? := by
  cases smcHeader with
  | false => rfl
  | true => exact List.getElem?_drop.trans (by rw [Nat.add_comm]; rfl)

theorem LaunchArgs.session_romByte (x : LaunchArgs) (file : List Byte) (cls : Byte) (m : Mode) (low : Bool)
    (save : List Byte) (k : Addr) :
    (x.session file cls m low save).romByte k = file[k.toNat + if x.smcHeader then 512 else 0]? :=
  (readImage_ofBytes _ _).trans (getElem?_stripSmc ..)

/-- The policy of a session evaluates as the supplied one, or as ZERO. -/
theorem sramOffset_sramPolicySet (x : LaunchArgs) (l : Layout) (a' : Addr) :
    sramOffset x.sramPolicySet l a' = match x.sramPolicy with
      | some sp => sramOffset sp l a'
      | none => 0 := by
  rw [LaunchArgs.sramPolicySet]
  cases x.sramPolicy <;> rfl

/-- Settles O56: the launch answers the session's first state over the save, or over no bytes. -/
theorem launchStartsTheSession : Obligations.LaunchStartsTheSession := by
  intro x file cls m low hrom hcls hmode hlow hsave
  have hsupplied : x.Supplies file cls m low := ⟨hrom, hcls, hmode, hlow⟩
  simp only [← sramBytes_eq] at hsave ⊢
  have hlaunch : ∃ save, launch x = .next (x.session file cls m low save) ∧
      ∀ k : Addr, k.toNat < sramBytes cls → (x.session file cls m low save).sramByte k = match x.save with
        | some save => save[k.toNat]?
        | none => some 0 := by
    cases hs : x.save with
    | none => exact ⟨[], launch_of_no_save hsupplied hs, fun k hk => readImage_of_lt hk⟩
    | some save =>
      have hlen := hsave save hs
      refine ⟨save, (launch_of_save hsupplied hs).trans (if_pos hlen), fun k _ => ?_⟩
      exact (congrArg (readImage · _ _) hlen.symm).trans (readImage_ofBytes save k.toNat)
  obtain ⟨save, hnext, hsram⟩ := hlaunch
  refine ⟨_, hnext, rfl, ?mirror, sramOffset_sramPolicySet x, ?sample, rfl, rfl, rfl, rfl, rfl, rfl, stripSmc_length ..,
    x.session_romByte file cls m low save, hsram⟩
  case mirror =>
    show x.mirrorPolicySet = _
    rw [LaunchArgs.mirrorPolicySet]
    cases x.mirrorPolicy <;> rfl
  case sample =>
    show x.sampleModeSet = _
    rw [LaunchArgs.sampleModeSet]
    cases x.sampleMode <;> rfl

end Sys2Proof.Machine
